-- ==== Sys2Proof/Word.lean ====
section
/-! DEFINITION. The word types of the CORE (R7, R8): all values are unsigned bit vectors. -/

namespace Sys2Proof

/-- A byte: a V register, a timer, a memory cell, the immediate `kk` (R14, R21, R32, R51). -/
abbrev Byte := BitVec 8

/-- A 16-bit word: an instruction word, I, PC, a stack entry, the key levels (R17, R18, R20, R27). -/
abbrev Word := BitVec 16

/-- A 4-bit field: a register number `x` or `y`, a row count `n`, a key number (R51). -/
abbrev Nibble := BitVec 4

/-- A 12-bit field: the address `nnn` (R51). -/
abbrev Addr12 := BitVec 12

/-- `zext_8` of a nibble (R8, R105). -/
def zext8 (n : Nibble) : Byte := n.zeroExtend 8

/-- `zext_16` of a 12-bit address (R8, R53). -/
def zext16 (a : Addr12) : Word := a.zeroExtend 16

/-- `zext_16` of a byte (R8, R53). -/
def zext16Byte (b : Byte) : Word := b.zeroExtend 16

end Sys2Proof
end

