-- ==== Sys2Proof/Config.lean ====
section
/-! DEFINITION. What an implementation fixes (R5: a model takes each non-fixed row as a configuration field) and the
free values that stand for the host's inputs. This hardware's values are in Machine/Hardware.lean. -/

namespace Sys2Proof

/-- `ADDR_POLICY` (R5, R33): what an effective address of 4096 or more does. -/
inductive AddrPolicy where
  /-- The address is taken mod 4096. -/
  | wrap
  /-- The access raises OutOfBoundsAddress. -/
  | fault
  deriving DecidableEq, Repr

/-- `KEY_WAIT_MODE` (R5, R103, R104): what resolves `LD Vx,K`. -/
inductive KeyWaitMode where
  /-- Any key that is pressed at the step. -/
  | level
  /-- A key pressed now and not pressed at the previous sample. -/
  | edge
  deriving DecidableEq, Repr

/-- `KEY_SELECT` (R5, R105): which of several pressed keys is stored. -/
inductive KeySelect where
  /-- The lowest-numbered one. -/
  | lowest
  /-- A draw over the pressed keys (R105's alternative, I9), made by the input `pick`. -/
  | any
  deriving DecidableEq, Repr

/-- `KEY_INDEX` (R5, R98): which key a value of Vx names. The spec names this one value only. -/
inductive KeyIndex where
  /-- The key number is Vx[3:0]. -/
  | lowNibble
  deriving DecidableEq, Repr

/-- `SPRITE_BIT_ORDER` (R5, R96): which bit of a sprite row is its leftmost column. -/
inductive SpriteBitOrder where
  /-- Bit 7 at column x0. -/
  | msbLeft
  /-- Bit 0 at column x0. -/
  | lsbLeft
  deriving DecidableEq, Repr

/-- The parameters of R5 that are not fixed by the source, less the two rates (log entry 2). -/
structure Config where
  addrPolicy : AddrPolicy
  addISetsVF : Bool
  keyWaitMode : KeyWaitMode
  keySelect : KeySelect
  keyIndex : KeyIndex
  fontBase : Nat
  fontData : List Byte
  fbW : Nat
  fbH : Nat
  spriteBitOrder : SpriteBitOrder
  deriving DecidableEq, Repr

/-- FREE VALUE (R27, R119 `keys`): the key levels the host presents at the `k`-th input record. Log entry 3. -/
opaque Config.freeKeys : Nat → BitVec 16

/-- FREE VALUE (R28, R119 `rnd`): the random byte the host presents at the `k`-th input record. Log entry 3. -/
opaque Config.freeRnd : Nat → BitVec 8

/-- FREE VALUE (R105): the key drawn among several pressed ones at the `k`-th input record. Log entries 3, 15. -/
opaque Config.freePick : Nat → BitVec 4

/-- FREE VALUE (R114, R115): how many ticks the host gives before the step of the `k`-th input record. Log entry 5. -/
opaque Config.freeTicks : Nat → Nat

end Sys2Proof
end

