-- ==== Sys2Proof/Syntax.lean ====
section
/-! DEFINITION. The instructions of the CORE: one constructor per row of the opcode map (R58, 34 rows, in its order). -/

namespace Sys2Proof

/-- One instruction with its operand fields (R51, R52). The operand types admit exactly the values the encoding
admits: `x`, `y`, `n` are nibbles, `kk` a byte, `nnn` 12 bits. -/
inductive Instr where
  /-- `00E0` CLS (R95). -/
  | cls
  /-- `00EE` RET (R66). -/
  | ret
  /-- `1nnn` JP addr (R67). -/
  | jpAddr (nnn : Addr12)
  /-- `2nnn` CALL addr (R68). -/
  | callAddr (nnn : Addr12)
  /-- `3xkk` SE Vx,kk (R69). -/
  | seVxKk (x : Nibble) (kk : Byte)
  /-- `4xkk` SNE Vx,kk (R70). -/
  | sneVxKk (x : Nibble) (kk : Byte)
  /-- `5xy0` SE Vx,Vy (R71). -/
  | seVxVy (x y : Nibble)
  /-- `9xy0` SNE Vx,Vy (R72). -/
  | sneVxVy (x y : Nibble)
  /-- `6xkk` LD Vx,kk (R76). -/
  | ldVxKk (x : Nibble) (kk : Byte)
  /-- `7xkk` ADD Vx,kk (R77). -/
  | addVxKk (x : Nibble) (kk : Byte)
  /-- `8xy0` LD Vx,Vy (R78). -/
  | ldVxVy (x y : Nibble)
  /-- `8xy1` OR Vx,Vy (R79). -/
  | orVxVy (x y : Nibble)
  /-- `8xy2` AND Vx,Vy (R80). -/
  | andVxVy (x y : Nibble)
  /-- `8xy3` XOR Vx,Vy (R81). -/
  | xorVxVy (x y : Nibble)
  /-- `8xy4` ADD Vx,Vy (R82). -/
  | addVxVy (x y : Nibble)
  /-- `8xy5` SUB Vx,Vy (R83). -/
  | subVxVy (x y : Nibble)
  /-- `8xy7` SUBN Vx,Vy (R84). -/
  | subnVxVy (x y : Nibble)
  /-- `8xy6` SHR Vx (R85). The field `y` is kept so that no word is lost; it is ignored (R61). -/
  | shrVx (x y : Nibble)
  /-- `8xyE` SHL Vx (R86). The field `y` is kept so that no word is lost; it is ignored (R61). -/
  | shlVx (x y : Nibble)
  /-- `Annn` LD I,addr (R89). -/
  | ldIAddr (nnn : Addr12)
  /-- `Bnnn` JP V0,addr (R73). -/
  | jpV0Addr (nnn : Addr12)
  /-- `Cxkk` RND Vx,kk (R87). -/
  | rndVxKk (x : Nibble) (kk : Byte)
  /-- `Dxyn` DRW Vx,Vy,n (R96). -/
  | drwVxVyN (x y n : Nibble)
  /-- `Ex9E` SKP Vx (R98). -/
  | skpVx (x : Nibble)
  /-- `ExA1` SKNP Vx (R99). -/
  | sknpVx (x : Nibble)
  /-- `Fx07` LD Vx,DT (R100). -/
  | ldVxDT (x : Nibble)
  /-- `Fx15` LD DT,Vx (R101). -/
  | ldDTVx (x : Nibble)
  /-- `Fx18` LD ST,Vx (R102). -/
  | ldSTVx (x : Nibble)
  /-- `Fx1E` ADD I,Vx (R90). -/
  | addIVx (x : Nibble)
  /-- `Fx29` LD F,Vx (R91). -/
  | ldFVx (x : Nibble)
  /-- `Fx33` LD B,Vx (R92). -/
  | ldBVx (x : Nibble)
  /-- `Fx55` LD [I],Vx (R93). -/
  | ldMemIVx (x : Nibble)
  /-- `Fx65` LD Vx,[I] (R94). -/
  | ldVxMemI (x : Nibble)
  /-- `Fx0A` LD Vx,K (R103). -/
  | ldVxK (x : Nibble)
  deriving DecidableEq, Repr

end Sys2Proof
end

