-- ==== Sys2Proof/WellFormed.lean ====
section
/-! DEFINITION. Well-formedness: of an instruction word (the opcode map, R58) and of a configuration (R6).
An `Instr` needs no check of its own: its operand types admit exactly the values its encoding admits (R52, R61). -/

namespace Sys2Proof

/-- One row of the opcode map (R58): a word selects it exactly when `w & mask = value`. -/
structure OpRow where
  mask : Word
  value : Word
  deriving DecidableEq, Repr

/-- `w & mask = match` (R58). -/
def OpRow.selects (r : OpRow) (w : Word) : Bool := w &&& r.mask == r.value

/-- The row of the opcode map (R58) each instruction belongs to. -/
def Instr.row : Instr → OpRow
  | .cls => ⟨0xFFFF, 0x00E0⟩
  | .ret => ⟨0xFFFF, 0x00EE⟩
  | .jpAddr _ => ⟨0xF000, 0x1000⟩
  | .callAddr _ => ⟨0xF000, 0x2000⟩
  | .seVxKk _ _ => ⟨0xF000, 0x3000⟩
  | .sneVxKk _ _ => ⟨0xF000, 0x4000⟩
  | .seVxVy _ _ => ⟨0xF00F, 0x5000⟩
  | .sneVxVy _ _ => ⟨0xF00F, 0x9000⟩
  | .ldVxKk _ _ => ⟨0xF000, 0x6000⟩
  | .addVxKk _ _ => ⟨0xF000, 0x7000⟩
  | .ldVxVy _ _ => ⟨0xF00F, 0x8000⟩
  | .orVxVy _ _ => ⟨0xF00F, 0x8001⟩
  | .andVxVy _ _ => ⟨0xF00F, 0x8002⟩
  | .xorVxVy _ _ => ⟨0xF00F, 0x8003⟩
  | .addVxVy _ _ => ⟨0xF00F, 0x8004⟩
  | .subVxVy _ _ => ⟨0xF00F, 0x8005⟩
  | .subnVxVy _ _ => ⟨0xF00F, 0x8007⟩
  | .shrVx _ _ => ⟨0xF00F, 0x8006⟩
  | .shlVx _ _ => ⟨0xF00F, 0x800E⟩
  | .ldIAddr _ => ⟨0xF000, 0xA000⟩
  | .jpV0Addr _ => ⟨0xF000, 0xB000⟩
  | .rndVxKk _ _ => ⟨0xF000, 0xC000⟩
  | .drwVxVyN _ _ _ => ⟨0xF000, 0xD000⟩
  | .skpVx _ => ⟨0xF0FF, 0xE09E⟩
  | .sknpVx _ => ⟨0xF0FF, 0xE0A1⟩
  | .ldVxDT _ => ⟨0xF0FF, 0xF007⟩
  | .ldDTVx _ => ⟨0xF0FF, 0xF015⟩
  | .ldSTVx _ => ⟨0xF0FF, 0xF018⟩
  | .addIVx _ => ⟨0xF0FF, 0xF01E⟩
  | .ldFVx _ => ⟨0xF0FF, 0xF029⟩
  | .ldBVx _ => ⟨0xF0FF, 0xF033⟩
  | .ldMemIVx _ => ⟨0xF0FF, 0xF055⟩
  | .ldVxMemI _ => ⟨0xF0FF, 0xF065⟩
  | .ldVxK _ => ⟨0xF0FF, 0xF00A⟩

/-- The opcode map (R58), row 1 to row 34. -/
def opcodeMap : List OpRow :=
  [⟨0xFFFF, 0x00E0⟩, ⟨0xFFFF, 0x00EE⟩, ⟨0xF000, 0x1000⟩, ⟨0xF000, 0x2000⟩, ⟨0xF000, 0x3000⟩, ⟨0xF000, 0x4000⟩,
   ⟨0xF00F, 0x5000⟩, ⟨0xF00F, 0x9000⟩, ⟨0xF000, 0x6000⟩, ⟨0xF000, 0x7000⟩]
  ++ [⟨0xF00F, 0x8000⟩, ⟨0xF00F, 0x8001⟩, ⟨0xF00F, 0x8002⟩, ⟨0xF00F, 0x8003⟩, ⟨0xF00F, 0x8004⟩, ⟨0xF00F, 0x8005⟩,
   ⟨0xF00F, 0x8007⟩, ⟨0xF00F, 0x8006⟩, ⟨0xF00F, 0x800E⟩]
  ++ [⟨0xF000, 0xA000⟩, ⟨0xF000, 0xB000⟩, ⟨0xF000, 0xC000⟩, ⟨0xF000, 0xD000⟩]
  ++ [⟨0xF0FF, 0xE09E⟩, ⟨0xF0FF, 0xE0A1⟩, ⟨0xF0FF, 0xF007⟩, ⟨0xF0FF, 0xF015⟩, ⟨0xF0FF, 0xF018⟩, ⟨0xF0FF, 0xF01E⟩,
   ⟨0xF0FF, 0xF029⟩, ⟨0xF0FF, 0xF033⟩, ⟨0xF0FF, 0xF055⟩, ⟨0xF0FF, 0xF065⟩, ⟨0xF0FF, 0xF00A⟩]

/-- A word is a valid instruction exactly when some row of the opcode map selects it (R57, R58, R60). -/
def wordWellFormed (w : Word) : Bool := opcodeMap.any (·.selects w)

/-- The constraints a configuration must satisfy (R6), with the size of the font table (R36): the font lies inside the
reserved region; `LD F,Vx` cannot overflow I; 16 glyphs of 5 bytes; a framebuffer of at least one column and one row. -/
def Config.wellFormed (cfg : Config) : Bool :=
  decide (cfg.fontBase + 16 * 5 ≤ 0x200) && decide (cfg.fontBase + 255 * 5 < 2 ^ 16)
    && decide (cfg.fontData.length = 16 * 5) && decide (1 ≤ cfg.fbW) && decide (1 ≤ cfg.fbH)

end Sys2Proof
end

