-- ==== Sys2Proof/Decode.lean ====
section
/-! DEFINITION. The decoder (R50 to R61, R65) and the encoder, both written from the formats of R52 and the opcode
map of R58. -/

namespace Sys2Proof

/-- `op` = w[15:12] (R51). -/
def opField (w : Word) : Nibble := w.extractLsb' 12 4

/-- `x` = w[11:8] (R51). -/
def xField (w : Word) : Nibble := w.extractLsb' 8 4

/-- `y` = w[7:4] (R51). -/
def yField (w : Word) : Nibble := w.extractLsb' 4 4

/-- `n` = w[3:0] (R51). -/
def nField (w : Word) : Nibble := w.extractLsb' 0 4

/-- `kk` = w[7:0] (R51). -/
def kkField (w : Word) : Byte := w.extractLsb' 0 8

/-- `nnn` = w[11:0] (R51). -/
def nnnField (w : Word) : Addr12 := w.extractLsb' 0 12

/-- The verdict of the decoder on a word (R65): a row of the opcode map with its fields, or Invalid, which carries the
word so that the refusal names it (R60). -/
inductive Decoded where
  | instr (i : Instr)
  | invalid (w : Word)
  deriving DecidableEq, Repr

/-- Family 0x0 is selected on the whole word (R57, D10). -/
def decodeFamily0 (w : Word) : Decoded :=
  if w = 0x00E0 then .instr .cls
  else if w = 0x00EE then .instr .ret
  else .invalid w

/-- Family 0x5: the low nibble must be 0 (R57). -/
def decodeFamily5 (w : Word) : Decoded :=
  if nField w = 0x0 then .instr (.seVxVy (xField w) (yField w)) else .invalid w

/-- Family 0x8 is selected on the low nibble (R57). -/
def decodeFamily8 (w : Word) : Decoded :=
  if nField w = 0x0 then .instr (.ldVxVy (xField w) (yField w))
  else if nField w = 0x1 then .instr (.orVxVy (xField w) (yField w))
  else if nField w = 0x2 then .instr (.andVxVy (xField w) (yField w))
  else if nField w = 0x3 then .instr (.xorVxVy (xField w) (yField w))
  else if nField w = 0x4 then .instr (.addVxVy (xField w) (yField w))
  else if nField w = 0x5 then .instr (.subVxVy (xField w) (yField w))
  else if nField w = 0x6 then .instr (.shrVx (xField w) (yField w))
  else if nField w = 0x7 then .instr (.subnVxVy (xField w) (yField w))
  else if nField w = 0xE then .instr (.shlVx (xField w) (yField w))
  else .invalid w

/-- Family 0x9: the low nibble must be 0 (R57, D12). -/
def decodeFamily9 (w : Word) : Decoded :=
  if nField w = 0x0 then .instr (.sneVxVy (xField w) (yField w)) else .invalid w

/-- Family 0xE is selected on `kk` (R57, D13). -/
def decodeFamilyE (w : Word) : Decoded :=
  if kkField w = 0x9E then .instr (.skpVx (xField w))
  else if kkField w = 0xA1 then .instr (.sknpVx (xField w))
  else .invalid w

/-- Family 0xF is selected on `kk` (R57, D13). -/
def decodeFamilyF (w : Word) : Decoded :=
  if kkField w = 0x07 then .instr (.ldVxDT (xField w))
  else if kkField w = 0x0A then .instr (.ldVxK (xField w))
  else if kkField w = 0x15 then .instr (.ldDTVx (xField w))
  else if kkField w = 0x18 then .instr (.ldSTVx (xField w))
  else if kkField w = 0x1E then .instr (.addIVx (xField w))
  else if kkField w = 0x29 then .instr (.ldFVx (xField w))
  else if kkField w = 0x33 then .instr (.ldBVx (xField w))
  else if kkField w = 0x55 then .instr (.ldMemIVx (xField w))
  else if kkField w = 0x65 then .instr (.ldVxMemI (xField w))
  else .invalid w

/-- `Decode(w)`, first on `op`, then on the subcode (R57, R58, R65). -/
def decode (w : Word) : Decoded :=
  if opField w = 0x0 then decodeFamily0 w
  else if opField w = 0x1 then .instr (.jpAddr (nnnField w))
  else if opField w = 0x2 then .instr (.callAddr (nnnField w))
  else if opField w = 0x3 then .instr (.seVxKk (xField w) (kkField w))
  else if opField w = 0x4 then .instr (.sneVxKk (xField w) (kkField w))
  else if opField w = 0x5 then decodeFamily5 w
  else if opField w = 0x6 then .instr (.ldVxKk (xField w) (kkField w))
  else if opField w = 0x7 then .instr (.addVxKk (xField w) (kkField w))
  else if opField w = 0x8 then decodeFamily8 w
  else if opField w = 0x9 then decodeFamily9 w
  else if opField w = 0xA then .instr (.ldIAddr (nnnField w))
  else if opField w = 0xB then .instr (.jpV0Addr (nnnField w))
  else if opField w = 0xC then .instr (.rndVxKk (xField w) (kkField w))
  else if opField w = 0xD then .instr (.drwVxVyN (xField w) (yField w) (nField w))
  else if opField w = 0xE then decodeFamilyE w
  else decodeFamilyF w

/-- What the decoder makes of a sequence of bytes. -/
inductive DecodedBytes where
  /-- A valid word, and the bytes after it. -/
  | instr (i : Instr) (rest : List Byte)
  /-- A word that matches no row (R60), and the bytes after it. -/
  | invalid (w : Word) (rest : List Byte)
  /-- Fewer than the two bytes every instruction has (R50). -/
  | truncated
  deriving DecidableEq, Repr

/-- The big-endian word of two bytes, the byte at the lower address first (R40). -/
def assemble (hi lo : Byte) : Word := hi ++ lo

/-- Decode the first instruction of a sequence of bytes: always two bytes (R40, R50). -/
def decodeBytes : List Byte → DecodedBytes
  | hi :: lo :: rest =>
    match decode (assemble hi lo) with
    | .instr i => .instr i rest
    | .invalid w => .invalid w rest
  | _ => .truncated

/-- Format NNN (R52): `op : nnn`. -/
def fmtNNN (op : Nibble) (nnn : Addr12) : Word := op ++ nnn

/-- Format XKK (R52): `op : x : kk`. -/
def fmtXKK (op x : Nibble) (kk : Byte) : Word := (op ++ x : BitVec 8) ++ kk

/-- Formats XYS and XYN (R52): `op : x : y : n`. -/
def fmtXYN (op x y n : Nibble) : Word := (op ++ x : BitVec 8) ++ (y ++ n : BitVec 8)

/-- The word of an instruction (R52, R58). -/
def encode : Instr → Word
  | .cls => 0x00E0
  | .ret => 0x00EE
  | .jpAddr nnn => fmtNNN 0x1 nnn
  | .callAddr nnn => fmtNNN 0x2 nnn
  | .seVxKk x kk => fmtXKK 0x3 x kk
  | .sneVxKk x kk => fmtXKK 0x4 x kk
  | .seVxVy x y => fmtXYN 0x5 x y 0x0
  | .sneVxVy x y => fmtXYN 0x9 x y 0x0
  | .ldVxKk x kk => fmtXKK 0x6 x kk
  | .addVxKk x kk => fmtXKK 0x7 x kk
  | .ldVxVy x y => fmtXYN 0x8 x y 0x0
  | .orVxVy x y => fmtXYN 0x8 x y 0x1
  | .andVxVy x y => fmtXYN 0x8 x y 0x2
  | .xorVxVy x y => fmtXYN 0x8 x y 0x3
  | .addVxVy x y => fmtXYN 0x8 x y 0x4
  | .subVxVy x y => fmtXYN 0x8 x y 0x5
  | .subnVxVy x y => fmtXYN 0x8 x y 0x7
  | .shrVx x y => fmtXYN 0x8 x y 0x6
  | .shlVx x y => fmtXYN 0x8 x y 0xE
  | .ldIAddr nnn => fmtNNN 0xA nnn
  | .jpV0Addr nnn => fmtNNN 0xB nnn
  | .rndVxKk x kk => fmtXKK 0xC x kk
  | .drwVxVyN x y n => fmtXYN 0xD x y n
  | .skpVx x => fmtXKK 0xE x 0x9E
  | .sknpVx x => fmtXKK 0xE x 0xA1
  | .ldVxDT x => fmtXKK 0xF x 0x07
  | .ldDTVx x => fmtXKK 0xF x 0x15
  | .ldSTVx x => fmtXKK 0xF x 0x18
  | .addIVx x => fmtXKK 0xF x 0x1E
  | .ldFVx x => fmtXKK 0xF x 0x29
  | .ldBVx x => fmtXKK 0xF x 0x33
  | .ldMemIVx x => fmtXKK 0xF x 0x55
  | .ldVxMemI x => fmtXKK 0xF x 0x65
  | .ldVxK x => fmtXKK 0xF x 0x0A

/-- The bytes of an instruction as memory holds them: the high byte at the lower address (R40). -/
def wordBytes (w : Word) : List Byte := [w.extractLsb' 8 8, w.extractLsb' 0 8]

/-- The word that the opcode table's numbering `w` with `nbits` bits stands for: the bits above `nbits` are 0. -/
def tableWord (nbits w : Nat) : Word := BitVec.ofNat 16 (w % 2 ^ nbits)

/-- The instruction the decoder reads from the word `w` of `nbits` bits, numbered as spec/opcode_table.json numbers
them, laid out in memory order. -/
def decodeTableWord (nbits w : Nat) : Option Instr :=
  match decodeBytes (wordBytes (tableWord nbits w)) with
  | .instr i _ => some i
  | .invalid _ _ => none
  | .truncated => none

end Sys2Proof
end

