-- ==== Sys2Proof/Machine/Hardware.lean ====
section
/-! DEFINITION. This hardware's parameter values (R5), its font table (R36), and the reset contents of memory (R38). -/

namespace Sys2Proof.Machine

/-- `FONT_DATA` (R36): glyphs 0 to F, five rows each. The bytes are general knowledge inside the spec (D19; log entry 9). -/
def fontTable : List Byte :=
  [0xF0, 0x90, 0x90, 0x90, 0xF0,  0x20, 0x60, 0x20, 0x20, 0x70]
  ++ [0xF0, 0x10, 0xF0, 0x80, 0xF0,  0xF0, 0x10, 0xF0, 0x10, 0xF0]
  ++ [0x90, 0x90, 0xF0, 0x10, 0x10,  0xF0, 0x80, 0xF0, 0x10, 0xF0]
  ++ [0xF0, 0x80, 0xF0, 0x90, 0xF0,  0xF0, 0x10, 0x20, 0x40, 0x40]
  ++ [0xF0, 0x90, 0xF0, 0x90, 0xF0,  0xF0, 0x90, 0xF0, 0x10, 0xF0]
  ++ [0xF0, 0x90, 0xF0, 0x90, 0x90,  0xE0, 0x90, 0xE0, 0x90, 0xE0]
  ++ [0xF0, 0x80, 0x80, 0x80, 0xF0,  0xE0, 0x90, 0x90, 0x90, 0xE0]
  ++ [0xF0, 0x80, 0xF0, 0x80, 0xF0,  0xF0, 0x80, 0xF0, 0x80, 0x80]

/-- The values of R5's table for this hardware. -/
def hardwareConfig : Config where
  addrPolicy := .wrap
  addISetsVF := false
  keyWaitMode := .level
  keySelect := .lowest
  keyIndex := .lowNibble
  fontBase := 0x050
  fontData := fontTable
  fbW := 64
  fbH := 32
  spriteBitOrder := .msbLeft

/-- What a byte of memory that nothing has written reads as: `FONT_DATA` at FONT_BASE and up, 0x00 elsewhere (R38). -/
def resetByte (cfg : Config) (a : Nat) : Byte :=
  if cfg.fontBase ≤ a then cfg.fontData.getD (a - cfg.fontBase) 0x00 else 0x00

end Sys2Proof.Machine
end

