-- ==== Sys2Proof/Machine/State.lean ====
section
/-! DEFINITION. The machine state (R13), as plain data, with the reset state (R31, R125). -/

namespace Sys2Proof.Machine

/-- The error kinds (R106). -/
inductive ErrorKind where
  /-- Code 0: no error; the value outside HALTED. -/
  | none
  /-- Code 1: CALL with the stack full. -/
  | stackOverflow
  /-- Code 2: RET with nothing pushed. -/
  | stackUnderflow
  /-- Code 3: the word matches no row of the opcode map. -/
  | invalidOpcode
  /-- Code 4: an effective address of 4096 or more under ADDR_POLICY = FAULT. -/
  | outOfBoundsAddress
  deriving DecidableEq, Repr

/-- The error record ERR (R24). -/
structure ErrRecord where
  kind : ErrorKind
  pc : Word
  opcode : Word
  deriving DecidableEq, Repr

/-- ERR outside HALTED (R24, R106). -/
def ErrRecord.clear : ErrRecord := ⟨.none, 0, 0⟩

/-- RUN (R23). Three values; R29's table calls the tag 2-valued (log entry 21). -/
inductive RunState where
  | running
  | awaitKey (x : Nibble)
  | halted
  deriving DecidableEq, Repr

/-- Which timer a TIMER_LOAD request names (R118). -/
inductive Timer where
  | delay
  | sound
  deriving DecidableEq, Repr

/-- The side-effect request of a step (R118). -/
inductive Request where
  | none
  | fbClear
  | fbDraw (x0 y0 : Byte) (n : Nibble) (i : Word) (collision : Bool)
  | keyWait (x : Nibble)
  | keyDone (x key : Nibble)
  | timerLoad (timer : Timer) (value : Byte)
  | halt (err : ErrRecord)
  deriving DecidableEq, Repr

/-- The host's inputs to the next step. THE MODEL'S OWN (log entry 3): the spec gives KEYS and RND8 as inputs of a step,
not as state (R27, R28), and ticks as events between steps (R115). -/
structure Inputs where
  /-- KEYS: bit k is key k (R27). -/
  keys : BitVec 16
  /-- RND8 (R28). -/
  rnd : Byte
  /-- The key the host would choose among several pressed ones, under KEY_SELECT = ANY (R105). -/
  pick : Nibble
  /-- How many ticks the host gives before the step (R115). -/
  ticks : Nat
  deriving DecidableEq, Repr

/-- MEM (R32): the bytes that differ from the reset contents, in strictly rising address order. -/
abbrev Memory := List Host.Cell

/-- A pixel (column, row) (R26). -/
abbrev Pixel := Nat × Nat

/-- FB (R26): the pixels that are on, in strictly rising order of column, then row. -/
abbrev Framebuffer := List Pixel

/-- The machine state (R13), with the configuration (R5), the step's request (R118) and the host's inputs. -/
structure State where
  /-- V0..VF (R14, R15). -/
  v : Vector Byte 16
  /-- I (R17). -/
  i : Word
  /-- PC (R18). -/
  pc : Word
  /-- SP, the number of occupied stack entries (R19). -/
  sp : Byte
  /-- STACK (R20). -/
  stack : Vector Word 16
  /-- DT (R21). -/
  dt : Byte
  /-- ST (R22). -/
  st : Byte
  /-- RUN (R23). -/
  run : RunState
  /-- ERR (R24). -/
  err : ErrRecord
  /-- KEY_PREV (R25), in use under KEY_WAIT_MODE = EDGE only. -/
  keyPrev : BitVec 16
  /-- FB (R26). -/
  fb : Framebuffer
  /-- MEM (R32). -/
  mem : Memory
  /-- The parameters of R5, fixed for the machine: no step changes them (log entry 1). -/
  cfg : Config
  /-- The side-effect request of the last step (R118, R119 `request`). -/
  request : Request
  /-- THE MODEL'S OWN: the host's inputs to the next step (log entry 3). -/
  inputs : Inputs
  /-- THE MODEL'S OWN: how many input records have been drawn so far (log entry 3). -/
  drawn : Nat
  deriving DecidableEq, Repr

/-- The reasons a step stops with no next state. The machine's own errors (R106) are NOT among them: they halt the CORE in
a next state (R107). -/
inductive Fault where
  /-- Raised by CALL with SP above 16 and by RET with SP above 16, where no stack entry exists: the spec says SP never holds
  such a value (R19), so no run reaches it. SAFE: the model stops (log entry 10). -/
  | noStackEntry
  deriving DecidableEq, Repr

/-- The reasons the model gives a step no meaning. -/
inductive Refusal where
  /-- Raised by an arm of `exec` whose instruction has no meaning yet. SAFE: the model stops. -/
  | notModelled (mnemonic : String)
  /-- Raised by `step` in a state whose configuration breaks R6 (I4, I5: such a configuration is a refuse). SAFE: the model
  stops (log entry 11). -/
  | invalidConfiguration
  /-- Raised by the loader operation `loadImage` on an image of more than 3584 bytes (R39, I14); no step raises it. SAFE: the
  loader, not the CORE, refuses (log entry 7). -/
  | oversizeImage
  deriving DecidableEq, Repr

/-- The `k`-th input record the host presents: free values, under no law (R27, R28, R115; log entry 3). -/
def drawInputs (k : Nat) : Inputs := ⟨Config.freeKeys k, Config.freeRnd k, Config.freePick k, Config.freeTicks k⟩

/-- The state after reset of a machine with the configuration `cfg` (R31, R125). The last three fields are the model's
own. The first step's KEYS, RND8 and `pick` are the free values of input record 0; no tick is pending, since DT and ST are 0
and a tick would change nothing (R114). DESIGN CHOICE (log entry 4). -/
def State.resetWith (cfg : Config) : State where
  v := .replicate 16 0x00
  i := 0x0000
  pc := 0x0200
  sp := 0
  stack := .replicate 16 0x0000
  dt := 0
  st := 0
  run := .running
  err := .clear
  keyPrev := 0x0000
  fb := []
  mem := []
  cfg := cfg
  request := .none
  inputs := { drawInputs 0 with ticks := 0 }
  drawn := 1

/-- The state after reset of this hardware (R5, R31). -/
def State.reset : State := .resetWith hardwareConfig

end Sys2Proof.Machine
end

