-- ==== Sys2Proof/Machine/Ops.lean ====
section
/-! DEFINITION. The operations every meaning and the step are built from: registers, memory under the address policy,
the stack, the program counter, raising an error, the timer tick, fetch, and the two ends of a step. -/

namespace Sys2Proof.Machine

/-- What a meaning answers. -/
abbrev Result := Host.Outcome State Fault Refusal

/-! ## General registers -/

/-- `V[x]` (R9, R14). -/
def getV (s : State) (x : Nibble) : Byte := s.v[x.toNat]'x.isLt

/-- `V[x] <- b` (R9, R14). -/
def setV (x : Nibble) (b : Byte) (s : State) : State := { s with v := s.v.set x.toNat b x.isLt }

/-- `V[F] <- b`: VF is an ordinary element of the register array (R15). -/
def setVF (b : Byte) (s : State) : State := setV 0xF b s

/-- `V[k] <- b_k` for the bytes given, from register number `k` up (R94). -/
def loadRegs : Nat → List Byte → State → State
  | _, [], s => s
  | k, b :: bs, s => loadRegs (k + 1) bs (setV (BitVec.ofNat 4 k) b s)

/-- V0..Vx, inclusive (R93). -/
def regsUpTo (x : Nibble) (s : State) : List Byte :=
  (List.range (x.toNat + 1)).map fun k => getV s (BitVec.ofNat 4 k)

/-! ## The program counter -/

/-- The fetch-time advance by 2, mod 2^16 (R56). -/
def advance (s : State) : State := { s with pc := s.pc + 2 }

/-- `if c then skip`: the fetch-time advance, and one extra 2 when `c` holds (R9, R56, R74). -/
def skipIf (c : Bool) (s : State) : State := { s with pc := if c then s.pc + 2 + 2 else s.pc + 2 }

/-- `PC <- target` (R9). -/
def jump (target : Word) (s : State) : State := { s with pc := target }

/-! ## Memory -/

/-- The byte the list holds for an address, if it lists it. -/
def lookupCell : Memory → Nat → Option Byte
  | [], _ => none
  | (k, b) :: m, a => if k = a then some b else lookupCell m a

/-- List a byte for an address, keeping the addresses in rising order. -/
def putCell : Memory → Nat → Byte → Memory
  | [], a, b => [(a, b)]
  | (k, c) :: m, a, b =>
    if a < k then (a, b) :: (k, c) :: m
    else if a = k then (a, b) :: m
    else (k, c) :: putCell m a b

/-- Drop an address from the list. -/
def dropCell (m : Memory) (a : Nat) : Memory := m.filter (fun c => c.1 != a)

/-- The canonical form of memory: strictly rising addresses inside the 4096 bytes, and no entry equal to what an unlisted
address reads as. -/
abbrev Memory.wf (cfg : Config) (m : Memory) : Prop :=
  m.Pairwise (fun p q => p.1 < q.1) ∧ ∀ c ∈ m, c.1 < 4096 ∧ c.2 ≠ resetByte cfg c.1

/-- `MEM[a]` (R34): an unlisted address holds its reset contents (R38, R46). -/
def readByte (s : State) (a : Nat) : Byte := (lookupCell s.mem a).getD (resetByte s.cfg a)

/-- `MEM[a] <- b` (R34), keeping the canonical form. -/
def writeByte (a : Nat) (b : Byte) (s : State) : State :=
  { s with mem := if b = resetByte s.cfg a then dropCell s.mem a else putCell s.mem a b }

/-- `Addr(ea)` (R33): the address an effective address reaches, or none where the policy raises OutOfBoundsAddress. -/
def addr (cfg : Config) (ea : Nat) : Option Nat :=
  match cfg.addrPolicy with
  | .wrap => some (ea % 4096)
  | .fault => if ea < 4096 then some ea else none

/-- `Addr(ea)`, …, `Addr(ea + n - 1)`, or none where any of them raises: an instruction checks all of its effective
addresses before it writes anything (R34). -/
def addrs (cfg : Config) : Nat → Nat → Option (List Nat)
  | _, 0 => some []
  | ea, n + 1 =>
    match addr cfg ea, addrs cfg (ea + 1) n with
    | some a, some as => some (a :: as)
    | _, _ => none

/-- `MemRead(ea, 1)` (R34). -/
def memRead (s : State) (ea : Nat) : Option Byte := (addr s.cfg ea).map (readByte s)

/-- Write bytes at addresses that the policy has passed, in order (R43). -/
def writeBytes : List Nat → List Byte → State → State
  | a :: as, b :: bs, s => writeBytes as bs (writeByte a b s)
  | _, _, s => s

/-! ## The return stack -/

/-- `STACK[SP] <- v; SP <- SP + 1` (R19, R68); none where no entry SP exists. -/
def push (v : Word) (s : State) : Option State :=
  if h : s.sp.toNat < 16 then some { s with stack := s.stack.set s.sp.toNat v h, sp := s.sp + 1 } else none

/-- `SP <- SP - 1; PC <- STACK[SP]` (R19, R66); the entry keeps its value (R20); none where no entry SP - 1 exists. -/
def popPC (s : State) : Option State :=
  if h : (s.sp - 1).toNat < 16 then some { s with sp := s.sp - 1, pc := s.stack[(s.sp - 1).toNat]'h } else none

/-! ## Errors: taking the machine's one kind of exception -/

/-- `raise E(a, w)` (R107), from the state before the fetch advance, where PC is `a`: nothing the instruction would write is
written, ERR records the kind, the fetch address and the word, and RUN becomes HALTED. The step's request is HALT (R118). -/
def raise (kind : ErrorKind) (w : Word) (s : State) : State :=
  { s with run := .halted, err := ⟨kind, s.pc, w⟩, request := .halt ⟨kind, s.pc, w⟩ }

/-! ## Timers -/

/-- A timer value one tick later: floored at 0 (R114). -/
def countDown (t : Byte) : Byte := if t = 0 then 0 else t - 1

/-- One timer tick (R114); ignored in HALTED (R116). -/
def tick (s : State) : State :=
  if s.run = .halted then s else { s with dt := countDown s.dt, st := countDown s.st }

/-- `k` timer ticks, one after another (R115). -/
def ticks : Nat → State → State
  | 0, s => s
  | k + 1, s => ticks k (tick s)

/-! ## Fetch -/

/-- `Fetch(a)` at a = PC (R55): two bytes, the one at `a` in bits 15:8; none where the policy raises. -/
def fetch (s : State) : Option Word :=
  match memRead s s.pc.toNat, memRead s (s.pc.toNat + 1) with
  | some hi, some lo => some (assemble hi lo)
  | _, _ => none

/-- What the fetch and decode of a step come to. -/
inductive Fetched where
  /-- An instruction to execute. -/
  | instr (i : Instr)
  /-- The halted state of a fetch or decode error. -/
  | error (t : State)
  deriving DecidableEq, Repr

/-- Fetch, then decode: first a fetch error, with opcode 0, then an invalid word (R55, R60, R110). -/
def fetchDecode (s : State) : Fetched :=
  match fetch s with
  | none => .error (raise .outOfBoundsAddress 0x0000 s)
  | some w =>
    match decode w with
    | .instr i => .instr i
    | .invalid _ => .error (raise .invalidOpcode w s)

/-! ## The two ends of a step -/

/-- Before the CORE's step: the ticks the host gave since the last one (R115), and no request yet (R118). -/
def beginStep (s : State) : State := { ticks s.inputs.ticks s with request := .none }

/-- After the CORE's step: the host's next inputs, which are free values (log entry 3). -/
def endStep (s : State) : State :=
  { s with inputs := drawInputs s.drawn, drawn := s.drawn + 1 }

/-- `endStep` on an outcome that has a next state. -/
def endResult : Result → Result
  | .next t => .next (endStep t)
  | .fault f => .fault f
  | .refused r => .refused r

end Sys2Proof.Machine
end

