-- ==== Sys2Proof/Machine/Flags.lean ====
section
/-! DEFINITION. The values written into VF as a flag (R15, R16), and the order of the two writes (R75). -/

namespace Sys2Proof.Machine

/-- A flag write stores 0x00 or 0x01 (R15). -/
def flagByte (c : Bool) : Byte := if c then 0x01 else 0x00

/-- The carry of `ADD Vx,Vy`: the unsigned sum exceeds 255 (R82). -/
def carryFlag (vx vy : Byte) : Byte := flagByte (decide (vx.toNat + vy.toNat > 255))

/-- The NOT-borrow of `a - b`: a >= b (R83, R84). -/
def notBorrowFlag (a b : Byte) : Byte := flagByte (decide (a.toNat ≥ b.toNat))

/-- The bit `SHR` shifts out: old bit 0 (R85). -/
def shiftedOutRight (vx : Byte) : Byte := vx &&& 0x01

/-- The bit `SHL` shifts out: old bit 7 (R86). -/
def shiftedOutLeft (vx : Byte) : Byte := vx >>> 7

/-- The overflow of `ADD I,Vx` past 0xFFF (R90), written only where ADD_I_SETS_VF is true. -/
def indexOverflowFlag (i : Word) (vx : Byte) : Byte := flagByte (decide (i.toNat + vx.toNat > 0xFFF))

/-- The result to V[x], and only after that the flag to VF (R75): with x = F the flag is what VF ends as. -/
def setResultThenFlag (x : Nibble) (result flag : Byte) (s : State) : State := setVF flag (setV x result s)

end Sys2Proof.Machine
end

