-- ==== Sys2Proof/Machine/Alu.lean ====
section
/-! DEFINITION. Register moves, bitwise and arithmetic instructions, and the random byte (R75 to R88). -/

namespace Sys2Proof.Machine

/-- `LD Vx,kk` (R76). -/
def execLdVxKk (x : Nibble) (kk : Byte) (s : State) : Result := .next (advance (setV x kk s))

/-- `ADD Vx,kk` (R77): no flag. -/
def execAddVxKk (x : Nibble) (kk : Byte) (s : State) : Result := .next (advance (setV x (getV s x + kk) s))

/-- `LD Vx,Vy` (R78). -/
def execLdVxVy (x y : Nibble) (s : State) : Result := .next (advance (setV x (getV s y) s))

/-- `OR Vx,Vy` (R79): no flag. -/
def execOrVxVy (x y : Nibble) (s : State) : Result := .next (advance (setV x (getV s x ||| getV s y) s))

/-- `AND Vx,Vy` (R80): no flag. -/
def execAndVxVy (x y : Nibble) (s : State) : Result := .next (advance (setV x (getV s x &&& getV s y) s))

/-- `XOR Vx,Vy` (R81): no flag. -/
def execXorVxVy (x y : Nibble) (s : State) : Result := .next (advance (setV x (getV s x ^^^ getV s y) s))

/-- `ADD Vx,Vy` (R82): carry to VF. -/
def execAddVxVy (x y : Nibble) (s : State) : Result :=
  .next (advance (setResultThenFlag x (getV s x + getV s y) (carryFlag (getV s x) (getV s y)) s))

/-- `SUB Vx,Vy` (R83): NOT-borrow to VF. -/
def execSubVxVy (x y : Nibble) (s : State) : Result :=
  .next (advance (setResultThenFlag x (getV s x - getV s y) (notBorrowFlag (getV s x) (getV s y)) s))

/-- `SUBN Vx,Vy` (R84): NOT-borrow to VF. -/
def execSubnVxVy (x y : Nibble) (s : State) : Result :=
  .next (advance (setResultThenFlag x (getV s y - getV s x) (notBorrowFlag (getV s y) (getV s x)) s))

/-- `SHR Vx` (R85): `y` is ignored (R61). -/
def execShrVx (x _y : Nibble) (s : State) : Result :=
  .next (advance (setResultThenFlag x (getV s x >>> 1) (shiftedOutRight (getV s x)) s))

/-- `SHL Vx` (R86): `y` is ignored (R61). -/
def execShlVx (x _y : Nibble) (s : State) : Result :=
  .next (advance (setResultThenFlag x (getV s x <<< 1) (shiftedOutLeft (getV s x)) s))

/-- `RND Vx,kk` (R87), on the step's input RND8 (R28). -/
def execRndVxKk (x : Nibble) (kk : Byte) (s : State) : Result := .next (advance (setV x (s.inputs.rnd &&& kk) s))

end Sys2Proof.Machine
end

