-- ==== Sys2Proof/Machine/ControlFlow.lean ====
section
/-! DEFINITION. Control flow (R66 to R74). Every meaning is given the state before the fetch advance, where PC is the fetch
address, and makes that advance itself (log entry 8). -/

namespace Sys2Proof.Machine

/-- `RET` (R66). -/
def execRet (s : State) : Result :=
  if s.sp = 0 then .next (raise .stackUnderflow (encode .ret) s)
  else
    match popPC s with
    | some t => .next t
    | none => .fault .noStackEntry

/-- `JP addr` (R67). -/
def execJpAddr (nnn : Addr12) (s : State) : Result := .next (jump (zext16 nnn) s)

/-- `CALL addr` (R68): the pushed value is the post-fetch PC. -/
def execCallAddr (nnn : Addr12) (s : State) : Result :=
  if s.sp = 16 then .next (raise .stackOverflow (encode (.callAddr nnn)) s)
  else
    match push (s.pc + 2) s with
    | some t => .next (jump (zext16 nnn) t)
    | none => .fault .noStackEntry

/-- `SE Vx,kk` (R69). -/
def execSeVxKk (x : Nibble) (kk : Byte) (s : State) : Result := .next (skipIf (getV s x == kk) s)

/-- `SNE Vx,kk` (R70). -/
def execSneVxKk (x : Nibble) (kk : Byte) (s : State) : Result := .next (skipIf (getV s x != kk) s)

/-- `SE Vx,Vy` (R71). -/
def execSeVxVy (x y : Nibble) (s : State) : Result := .next (skipIf (getV s x == getV s y) s)

/-- `SNE Vx,Vy` (R72). -/
def execSneVxVy (x y : Nibble) (s : State) : Result := .next (skipIf (getV s x != getV s y) s)

/-- `JP V0,addr` (R73): the sum is not reduced. -/
def execJpV0Addr (nnn : Addr12) (s : State) : Result := .next (jump (zext16 nnn + zext16Byte (getV s 0x0)) s)

end Sys2Proof.Machine
end

