-- ==== Sys2Proof/Machine/Framebuffer.lean ====
section
/-! DEFINITION. The operations on the framebuffer (R26): reading, flipping and drawing pixels. -/

namespace Sys2Proof.Machine

/-- `FB[c][r] = 1` for the pixel (c, r) (R26). -/
def lit (fb : Framebuffer) (p : Pixel) : Bool := decide (p ∈ fb)

/-- The order the lit pixels are listed in: by column, then by row. -/
abbrev pixelBefore (p q : Pixel) : Prop := p.1 < q.1 ∨ (p.1 = q.1 ∧ p.2 < q.2)

/-- Turn a pixel on. -/
def lightPixel : Framebuffer → Pixel → Framebuffer
  | [], p => [p]
  | q :: fb, p =>
    if pixelBefore p q then p :: q :: fb
    else if p = q then q :: fb
    else q :: lightPixel fb p

/-- Turn a pixel off. -/
def darkenPixel (fb : Framebuffer) (p : Pixel) : Framebuffer := fb.filter (fun q => q != p)

/-- `FB[c][r] <- FB[c][r] ^ 1` (R96). -/
def flipPixel (fb : Framebuffer) (p : Pixel) : Framebuffer := if lit fb p then darkenPixel fb p else lightPixel fb p

/-- The loop of R96 over the pixels whose sprite bit is 1, in order: each is flipped, and one that was on is a collision. -/
def drawPixels : List Pixel → Framebuffer → Bool → Framebuffer × Bool
  | [], fb, collision => (fb, collision)
  | p :: ps, fb, collision => drawPixels ps (flipPixel fb p) (collision || lit fb p)

/-- The canonical form of the framebuffer: strictly rising, every pixel inside FB_W x FB_H. -/
abbrev Framebuffer.wf (cfg : Config) (fb : Framebuffer) : Prop :=
  fb.Pairwise pixelBefore ∧ ∀ p ∈ fb, p.1 < cfg.fbW ∧ p.2 < cfg.fbH

end Sys2Proof.Machine
end

