-- ==== Sys2Proof/Machine/Operands.lean ====
section
/-! DEFINITION. The operand forms: key numbers and key selection, the glyph address, decimal digits, sprite pixels. -/

namespace Sys2Proof.Machine

/-- `k <- V[x] & 0x0F` (R98; KEY_INDEX of R5). -/
def keyNumber (cfg : Config) (vx : Byte) : Nibble :=
  match cfg.keyIndex with
  | .lowNibble => vx.extractLsb' 0 4

/-- `KEYS[k]` (R9, R27). -/
def keyPressed (keys : BitVec 16) (k : Nibble) : Bool := keys.getLsbD k.toNat

/-- The lowest k with `P[k] = 1` (R105); 0 for the vector with no key, on which nothing calls it. -/
def lowestKey (p : BitVec 16) : Nibble := BitVec.ofNat 4 (((List.range 16).find? fun k => p.getLsbD k).getD 0)

/-- `Select(P)` (R105). Under ANY it is the key the host picks, when that one is pressed, and the lowest pressed one else, so
that every pressed key, and no other, can be the answer (log entry 15). -/
def select (cfg : Config) (pick : Nibble) (p : BitVec 16) : Nibble :=
  match cfg.keySelect with
  | .lowest => lowestKey p
  | .any => if keyPressed p pick then pick else lowestKey p

/-- `(FONT_BASE + 5 * V[x]) mod 2^16`, on the whole byte V[x] (R91). -/
def glyphAddress (cfg : Config) (vx : Byte) : Word := BitVec.ofNat 16 (cfg.fontBase + 5 * vx.toNat)

/-- `(I + V[x]) mod 4096` (R90). -/
def indexSum (i : Word) (vx : Byte) : Word := BitVec.ofNat 16 ((i.toNat + vx.toNat) % 4096)

/-- The hundreds, tens and ones of a byte (R92). -/
def decimalDigits (v : Byte) : List Byte := [v / 100, v / 10 % 10, v % 10]

/-- The bit of a sprite row that column `c` of the sprite shows (R96). -/
def spriteBit (order : SpriteBitOrder) (row : Byte) (c : Nat) : Bool :=
  match order with
  | .msbLeft => row.getLsbD (7 - c)
  | .lsbLeft => row.getLsbD c

/-- The pixel of column `c`, row `r` of a sprite at (x0, y0), wrapping on both axes (R96). -/
def spritePixel (cfg : Config) (x0 y0 : Byte) (c r : Nat) : Pixel := ((x0.toNat + c) % cfg.fbW, (y0.toNat + r) % cfg.fbH)

/-- The pixels of one sprite row whose bit is 1, from column 0 to 7 (R96). -/
def rowPixels (cfg : Config) (x0 y0 : Byte) (r : Nat) (row : Byte) : List Pixel :=
  ((List.range 8).filter fun c => spriteBit cfg.spriteBitOrder row c).map fun c => spritePixel cfg x0 y0 c r

/-- The pixels of a sprite whose bit is 1, row by row from row number `r`, in the order R96 visits them. -/
def spritePixels (cfg : Config) (x0 y0 : Byte) : Nat → List Byte → List Pixel
  | _, [] => []
  | r, row :: rows => rowPixels cfg x0 y0 r row ++ spritePixels cfg x0 y0 (r + 1) rows

end Sys2Proof.Machine
end

