-- ==== Sys2Proof/Machine/Display.lean ====
section
/-! DEFINITION. The framebuffer instructions (R95 to R97) with their requests (R118). -/

namespace Sys2Proof.Machine

/-- `CLS` (R95), request FB_CLEAR. -/
def execCls (s : State) : Result := .next (advance { s with fb := [], request := .fbClear })

/-- `DRW Vx,Vy,n` (R96), request FB_DRAW: the coordinates are read before VF is written, the collision flag is written last. -/
def execDrwVxVyN (x y n : Nibble) (s : State) : Result :=
  match addrs s.cfg s.i.toNat n.toNat with
  | some as =>
    let pixels := spritePixels s.cfg (getV s x) (getV s y) 0 (as.map (readByte s))
    let drawn := drawPixels pixels s.fb false
    .next (advance (setVF (flagByte drawn.2)
      { s with fb := drawn.1, request := .fbDraw (getV s x) (getV s y) n s.i drawn.2 }))
  | none => .next (raise .outOfBoundsAddress (encode (.drwVxVyN x y n)) s)

end Sys2Proof.Machine
end

