-- ==== Sys2Proof/Machine/IndexMemory.lean ====
section
/-! DEFINITION. The index register and the memory transfers (R89 to R94). None modifies I unless its rule says so (D8). -/

namespace Sys2Proof.Machine

/-- `LD I,addr` (R89). -/
def execLdIAddr (nnn : Addr12) (s : State) : Result := .next (advance { s with i := zext16 nnn })

/-- `ADD I,Vx` (R90): VF is written only where ADD_I_SETS_VF is true, after I and from the operands as read first (R10). -/
def execAddIVx (x : Nibble) (s : State) : Result :=
  let t := { s with i := indexSum s.i (getV s x) }
  .next (advance (if s.cfg.addISetsVF then setVF (indexOverflowFlag s.i (getV s x)) t else t))

/-- `LD F,Vx` (R91). -/
def execLdFVx (x : Nibble) (s : State) : Result := .next (advance { s with i := glyphAddress s.cfg (getV s x) })

/-- `LD B,Vx` (R92). -/
def execLdBVx (x : Nibble) (s : State) : Result :=
  match addrs s.cfg s.i.toNat 3 with
  | some as => .next (advance (writeBytes as (decimalDigits (getV s x)) s))
  | none => .next (raise .outOfBoundsAddress (encode (.ldBVx x)) s)

/-- `LD [I],Vx` (R93): V0 to Vx, inclusive. -/
def execLdMemIVx (x : Nibble) (s : State) : Result :=
  match addrs s.cfg s.i.toNat (x.toNat + 1) with
  | some as => .next (advance (writeBytes as (regsUpTo x s) s))
  | none => .next (raise .outOfBoundsAddress (encode (.ldMemIVx x)) s)

/-- `LD Vx,[I]` (R94): V0 to Vx, inclusive. -/
def execLdVxMemI (x : Nibble) (s : State) : Result :=
  match addrs s.cfg s.i.toNat (x.toNat + 1) with
  | some as => .next (advance (loadRegs 0 (as.map (readByte s)) s))
  | none => .next (raise .outOfBoundsAddress (encode (.ldVxMemI x)) s)

end Sys2Proof.Machine
end

