-- ==== Sys2Proof/Machine/InputTimers.lean ====
section
/-! DEFINITION. The keypad and timer instructions and the key-wait poll (R98 to R105). -/

namespace Sys2Proof.Machine

/-- `SKP Vx` (R98). -/
def execSkpVx (x : Nibble) (s : State) : Result :=
  .next (skipIf (keyPressed s.inputs.keys (keyNumber s.cfg (getV s x))) s)

/-- `SKNP Vx` (R99). -/
def execSknpVx (x : Nibble) (s : State) : Result :=
  .next (skipIf (!keyPressed s.inputs.keys (keyNumber s.cfg (getV s x))) s)

/-- `LD Vx,DT` (R100). -/
def execLdVxDT (x : Nibble) (s : State) : Result := .next (advance (setV x s.dt s))

/-- `LD DT,Vx` (R101), request TIMER_LOAD. -/
def execLdDTVx (x : Nibble) (s : State) : Result :=
  .next (advance { s with dt := getV s x, request := .timerLoad .delay (getV s x) })

/-- `LD ST,Vx` (R102), request TIMER_LOAD. -/
def execLdSTVx (x : Nibble) (s : State) : Result :=
  .next (advance { s with st := getV s x, request := .timerLoad .sound (getV s x) })

/-- Enter AWAIT_KEY(x): PC is held at the instruction's own address, which it has before the fetch advance (R103, C4),
request KEY_WAIT. -/
def awaitKey (x : Nibble) (s : State) : State := { s with run := .awaitKey x, request := .keyWait x }

/-- `LD Vx,K` (R103). -/
def execLdVxK (x : Nibble) (s : State) : Result :=
  match s.cfg.keyWaitMode with
  | .level =>
    .next (if s.inputs.keys = 0 then awaitKey x s
      else advance (setV x (zext8 (select s.cfg s.inputs.pick s.inputs.keys)) s))
  | .edge => .next (awaitKey x { s with keyPrev := s.inputs.keys })

/-- The keys that resolve a poll: the pressed ones under LEVEL, the newly pressed ones under EDGE (R104). -/
def resolvingKeys (s : State) : BitVec 16 :=
  match s.cfg.keyWaitMode with
  | .level => s.inputs.keys
  | .edge => s.inputs.keys &&& ~~~s.keyPrev

/-- Under EDGE a poll stores the key levels in KEY_PREV; under LEVEL there is no such register (R25, R104). -/
def samplePrev (s : State) : State :=
  match s.cfg.keyWaitMode with
  | .level => s
  | .edge => { s with keyPrev := s.inputs.keys }

/-- A poll that resolves: V[x] <- key, past the LD Vx,K, RUNNING, request KEY_DONE (R104, R118). -/
def resolveWait (x key : Nibble) (s : State) : State :=
  advance { setV x (zext8 key) s with run := .running, request := .keyDone x key }

/-- `Poll(x, KEYS)` (R104). -/
def poll (x : Nibble) (s : State) : State :=
  let p := resolvingKeys s
  if p = 0 then samplePrev s else resolveWait x (select s.cfg s.inputs.pick p) (samplePrev s)

end Sys2Proof.Machine
end

