-- ==== Sys2Proof/Machine/Interface.lean ====
section
/-! DEFINITION. The host's side of the interface (R117, R119 to R121): reset, the loader, and what the host can read. -/

namespace Sys2Proof.Machine

/-- The `reset` input (R125): every piece of the CORE's state takes its reset value, whatever RUN was. The configuration is
the machine's own, and the host's inputs are not CORE state, so both stay. -/
def assertReset (s : State) : State := { State.resetWith s.cfg with inputs := s.inputs, drawn := s.drawn }

/-- The loader (R39): the image at 0x200 and up; an image of more than 3584 bytes is refused by the loader (I14). The host
calls it between reset and the first step (R128). -/
def loadImage (image : List Byte) (s : State) : Result :=
  if image.length ≤ 0xE00 then .next (writeBytes ((List.range image.length).map (0x200 + ·)) image s)
  else .refused .oversizeImage

/-- `sound_active` (R117). -/
def soundActive (s : State) : Bool := s.st != 0

/-- The framebuffer read port (R119): pixel (column, row). -/
def pixelOn (s : State) (c r : Nat) : Bool := lit s.fb (c, r)

/-- The numeric code of an error kind on the `err` output (R106). -/
def errorCode : ErrorKind → Nat
  | .none => 0
  | .stackOverflow => 1
  | .stackUnderflow => 2
  | .invalidOpcode => 3
  | .outOfBoundsAddress => 4

end Sys2Proof.Machine
end

