-- ==== Sys2Proof/Machine/Step.lean ====
section
/-! DEFINITION. One step of the CORE (R54), with the host's ticks before it and the host's next inputs after it. -/

namespace Sys2Proof.Machine

/-- The CORE's own step (R54), by the run state: nothing in HALTED, a poll in AWAIT_KEY, one instruction in RUNNING. -/
def stepCore (s : State) : Host.Outcome State Fault Refusal :=
  match s.run with
  | .halted => .next s
  | .awaitKey x => .next (poll x s)
  | .running =>
    match fetchDecode s with
    | .instr i => exec i s
    | .error t => .next t

/-- One step: the ticks the host gave since the last step (R115), the CORE's step (R54), and then the host's next inputs. A
configuration that breaks R6 is refused (I4, I5). -/
def step (s : State) : Host.Outcome State Fault Refusal :=
  if s.cfg.wellFormed then endResult (stepCore (beginStep s)) else .refused .invalidConfiguration

/-- `s` with the word `w` of `nbits` bits, numbered as spec/opcode_table.json numbers them, stored where `step` fetches its
next instruction, high byte first (R40), and the CORE RUNNING, so that the next step fetches it (log entry 7). -/
def State.withFetchWord (s : State) (nbits w : Nat) : State :=
  { writeBytes [s.pc.toNat % 4096, (s.pc.toNat + 1) % 4096] (wordBytes (tableWord nbits w)) s with run := .running }

end Sys2Proof.Machine
end

