-- ==== Sys2Proof/Safety.lean ====
section
/-! DEFINITION. The terms claims are stated in: the invariant of a run, the frames of the instruction shapes, and the states
that differ in one host input only. -/

namespace Sys2Proof.Machine

/-- What holds of every state a run reaches: the configuration satisfies R6; memory and the framebuffer are in canonical form;
SP is 0..16 (R19); bits 15:12 of I are zero (R17); ERR is clear outside HALTED and names an error at PC in HALTED (R24, R106,
R107); OutOfBoundsAddress is never raised under WRAP (R33); KEY_PREV is not in use under LEVEL (R25); in AWAIT_KEY(x) the word
at PC is the waiting LD Vx,K (R18, R104). -/
structure State.Inv (s : State) : Prop where
  config : s.cfg.wellFormed = true
  memory : Memory.wf s.cfg s.mem
  framebuffer : Framebuffer.wf s.cfg s.fb
  stackPointer : s.sp.toNat ≤ 16
  index : s.i.toNat < 4096
  noError : s.run ≠ .halted → s.err = .clear
  haltedError : s.run = .halted → s.err.kind ≠ .none ∧ s.err.pc = s.pc
  wrapNeverOutOfBounds : s.cfg.addrPolicy = .wrap → s.err.kind ≠ .outOfBoundsAddress
  levelNoKeyPrev : s.cfg.keyWaitMode = .level → s.keyPrev = 0
  waiting : ∀ x, s.run = .awaitKey x → fetch s = some (encode (.ldVxK x))

/-- `t` follows `s` in sequence: PC is 2 further, mod 2^16 (R56). -/
def InSequence (s t : State) : Prop := t.pc.toNat = (s.pc.toNat + 2) % 65536

/-- `t` is `s` but for V and PC: every other register, the stack, the timers, RUN, ERR, the framebuffer and the model's own
fields are the same, and every byte of memory reads as before. -/
def OnlyRegsAndPC (s t : State) : Prop := t = { s with v := t.v, pc := t.pc } ∧ ∀ a, readByte t a = readByte s a

/-- `t` is `s` but for PC, and every byte of memory reads as before. -/
def OnlyPC (s t : State) : Prop := t = { s with pc := t.pc } ∧ ∀ a, readByte t a = readByte s a

/-- `t` is `s` halted by the error `kind` at the word `w` (R107): RUN and ERR, and the step's HALT request (R118); nothing else
has changed, PC included, and every byte of memory reads as before. -/
def HaltedBy (kind : ErrorKind) (w : Word) (s t : State) : Prop :=
  t = { s with run := .halted, err := ⟨kind, s.pc, w⟩, request := .halt ⟨kind, s.pc, w⟩ } ∧
    ∀ a, readByte t a = readByte s a

/-- A block of `n` bytes from I raises OutOfBoundsAddress: the policy is FAULT and the last address is 4096 or more (R33, R109). -/
def BlockOutOfBounds (s : State) (n : Nat) : Prop :=
  s.cfg.addrPolicy = .fault ∧ 0 < n ∧ 4096 ≤ s.i.toNat + n - 1

/-- One visit of R96's inner loop, on a grid of pixels as a function: sprite column `c`, sprite row `r` with the bit `b`. -/
def refVisit (w h x0 y0 : Nat) (g : (Nat → Nat → Bool) × Bool) (c r : Nat) (b : Bool) : (Nat → Nat → Bool) × Bool :=
  if b then
    let px := (x0 + c) % w
    let py := (y0 + r) % h
    (fun c' r' => if c' = px ∧ r' = py then !g.1 c' r' else g.1 c' r', g.2 || g.1 px py)
  else g

/-- R96's two loops, literally: rows 0 to n - 1, in each the columns 0 to 7; `bit r c` is the sprite's bit. -/
def refDraw (w h x0 y0 n : Nat) (bit : Nat → Nat → Bool) (grid : Nat → Nat → Bool) : (Nat → Nat → Bool) × Bool :=
  (List.range n).foldl (fun g r => (List.range 8).foldl (fun g c => refVisit w h x0 y0 g c r (bit r c)) g) (grid, false)

/-- The sprite's bit in row `r`, column `c`: of the byte at I + r, bit 7 - c under MSB_LEFT, bit c under LSB_LEFT (R96). -/
def spriteBitAt (s : State) (r c : Nat) : Bool :=
  match s.cfg.spriteBitOrder with
  | .msbLeft => (readByte s ((s.i.toNat + r) % 4096)).getLsbD (7 - c)
  | .lsbLeft => (readByte s ((s.i.toNat + r) % 4096)).getLsbD c

/-- The instructions that write VF as a flag (R16); `ADD I,Vx` only where ADD_I_SETS_VF is true (R90). -/
def writesFlag (cfg : Config) : Instr → Bool
  | .addVxVy _ _ => true
  | .subVxVy _ _ => true
  | .subnVxVy _ _ => true
  | .shrVx _ _ => true
  | .shlVx _ _ => true
  | .drwVxVyN _ _ _ => true
  | .addIVx _ => cfg.addISetsVF
  | _ => false

/-- The registers an instruction may write: the destinations it names, and VF where it writes a flag (R14, R16, R90, R94). -/
def writesReg (cfg : Config) (i : Instr) (r : Nibble) : Bool :=
  match i with
  | .cls => false
  | .ret => false
  | .jpAddr _ => false
  | .callAddr _ => false
  | .seVxKk _ _ => false
  | .sneVxKk _ _ => false
  | .seVxVy _ _ => false
  | .sneVxVy _ _ => false
  | .ldVxKk x _ => r == x
  | .addVxKk x _ => r == x
  | .ldVxVy x _ => r == x
  | .orVxVy x _ => r == x
  | .andVxVy x _ => r == x
  | .xorVxVy x _ => r == x
  | .addVxVy x _ => r == x || r == 0xF
  | .subVxVy x _ => r == x || r == 0xF
  | .subnVxVy x _ => r == x || r == 0xF
  | .shrVx x _ => r == x || r == 0xF
  | .shlVx x _ => r == x || r == 0xF
  | .ldIAddr _ => false
  | .jpV0Addr _ => false
  | .rndVxKk x _ => r == x
  | .drwVxVyN _ _ _ => r == 0xF
  | .skpVx _ => false
  | .sknpVx _ => false
  | .ldVxDT x => r == x
  | .ldDTVx _ => false
  | .ldSTVx _ => false
  | .addIVx _ => cfg.addISetsVF && r == 0xF
  | .ldFVx _ => false
  | .ldBVx _ => false
  | .ldMemIVx _ => false
  | .ldVxMemI x => decide (r.toNat ≤ x.toNat)
  | .ldVxK x => r == x

/-- The instructions that set PC otherwise than by the fetch-time advance (R29, R56). -/
def setsPC : Instr → Bool
  | .cls => false
  | .ret => true
  | .jpAddr _ => true
  | .callAddr _ => true
  | .seVxKk _ _ => true
  | .sneVxKk _ _ => true
  | .seVxVy _ _ => true
  | .sneVxVy _ _ => true
  | .ldVxKk _ _ => false
  | .addVxKk _ _ => false
  | .ldVxVy _ _ => false
  | .orVxVy _ _ => false
  | .andVxVy _ _ => false
  | .xorVxVy _ _ => false
  | .addVxVy _ _ => false
  | .subVxVy _ _ => false
  | .subnVxVy _ _ => false
  | .shrVx _ _ => false
  | .shlVx _ _ => false
  | .ldIAddr _ => false
  | .jpV0Addr _ => true
  | .rndVxKk _ _ => false
  | .drwVxVyN _ _ _ => false
  | .skpVx _ => true
  | .sknpVx _ => true
  | .ldVxDT _ => false
  | .ldDTVx _ => false
  | .ldSTVx _ => false
  | .addIVx _ => false
  | .ldFVx _ => false
  | .ldBVx _ => false
  | .ldMemIVx _ => false
  | .ldVxMemI _ => false
  | .ldVxK _ => true

/-- The bytes a completing store instruction leaves at I and up: the digits of LD B,Vx (R92), or V0 to Vx of LD [I],Vx (R93). -/
def storedBytes (s : State) : Instr → List Byte
  | .ldBVx x => decimalDigits (getV s x)
  | .ldMemIVx x => regsUpTo x s
  | _ => []

/-- `s` with another random byte at the input (R28). -/
def State.withRnd (r : Byte) (s : State) : State := { s with inputs := { s.inputs with rnd := r } }

/-- `s` with other key levels, and another choice among the pressed keys, at the inputs (R27, R105). -/
def State.withKeys (keys : BitVec 16) (pick : Nibble) (s : State) : State :=
  { s with inputs := { s.inputs with keys := keys, pick := pick } }

/-- A change of state carried over an outcome. -/
def mapNext (f : State → State) : Result → Result
  | .next t => .next (f t)
  | .fault e => .fault e
  | .refused r => .refused r

end Sys2Proof.Machine
end

