-- ==== Sys2Proof/Certificates/Slice0/Obligations.lean ====
section
/-! DEFINITION. The statements for the provers, from the numbered rules of spec/. Each docstring names its rules. -/

open Sys2Proof Sys2Proof.Machine

/-! ## Encoding -/

/-- R52, R58, R65, on the opcode values that R59 takes from general knowledge (D35): decoding the word of any instruction gives the
instruction, every operand at every value. -/
def Obligations.DecodeOfEncodeIsInstruction : Prop :=
  ∀ i : Instr, decode (encode i) = .instr i

/-- R51, R58, R65 (opcode values: R59, D35): a word that decodes to an instruction is the word of that instruction: no bit is
dropped, the ignored `y` of the shifts included. -/
def Obligations.EncodeOfDecodedIsWord : Prop :=
  ∀ (w : Word) (i : Instr), decode w = .instr i → encode i = w

/-- R58, R65 (opcode values: R59, D35): a word decodes to an instruction exactly when a row of the opcode map selects it, the
row is then the instruction's own, and no two rows select one word. -/
def Obligations.WordDecodesIffOneRowSelectsIt : Prop :=
  ∀ w : Word,
    ((∃ i, decode w = .instr i) ↔ ∃ r ∈ opcodeMap, w &&& r.mask = r.value) ∧
    (∀ i, decode w = .instr i → w &&& i.row.mask = i.row.value) ∧
    (∀ r ∈ opcodeMap, ∀ r' ∈ opcodeMap, w &&& r.mask = r.value → w &&& r'.mask = r'.value → r = r')

/-- R57, R60 (with the spec's own decisions D10 to D13): the invalid words, family by family. -/
def Obligations.InvalidWordsByFamily : Prop :=
  ∀ w : Word, decode w = .invalid w ↔
    (w.toNat / 4096 = 0x0 ∧ w.toNat ≠ 0x00E0 ∧ w.toNat ≠ 0x00EE) ∨
    (w.toNat / 4096 = 0x5 ∧ w.toNat % 16 ≠ 0) ∨
    (w.toNat / 4096 = 0x8 ∧ w.toNat % 16 ∈ [0x8, 0x9, 0xA, 0xB, 0xC, 0xD, 0xF]) ∨
    (w.toNat / 4096 = 0x9 ∧ w.toNat % 16 ≠ 0) ∨
    (w.toNat / 4096 = 0xE ∧ w.toNat % 256 ∉ [0x9E, 0xA1]) ∨
    (w.toNat / 4096 = 0xF ∧ w.toNat % 256 ∉ [0x07, 0x0A, 0x15, 0x18, 0x1E, 0x29, 0x33, 0x55, 0x65])

/-- R58 (opcode values: R59, D35): words written out from the opcode map, one of each format, and two invalid ones (R60). -/
def Obligations.SampleWordsDecodeRight : Prop :=
  decode 0x00E0 = .instr .cls ∧ decode 0x2ABC = .instr (.callAddr 0xABC) ∧ decode 0x6A05 = .instr (.ldVxKk 0xA 0x05) ∧
  decode 0x8124 = .instr (.addVxVy 0x1 0x2) ∧ decode 0xD125 = .instr (.drwVxVyN 0x1 0x2 0x5) ∧
  decode 0xFA1E = .instr (.addIVx 0xA) ∧ decode 0x5001 = .invalid 0x5001 ∧ decode 0x0123 = .invalid 0x0123

/-! ## The step -/

/-- R54 (D1): with a legal configuration, RUNNING, and a valid word at PC, the step is the execution of the decoded instruction,
between the host's ticks and the host's next inputs (the model's own: log entries 3 and 5). -/
def Obligations.StepRunsDecodedInstruction : Prop :=
  ∀ (s : State) (w : Word) (i : Instr), s.cfg.wellFormed = true → s.run = .running → fetch s = some w →
    decode w = .instr i → step s = endResult (exec i (beginStep s))

/-- R54, R104 (the poll as a step of its own: the spec's own decisions D1, D14), and I4, I5 with log entry 11 (DEDUCED): a step of a
machine whose configuration satisfies R6 is the CORE's own step between the host's ticks and the host's next inputs (the model's own:
log entries 3 and 5); in AWAIT_KEY it is the poll; a configuration that breaks R6 is refused. -/
def Obligations.StepIsCoreStepOrRefusal : Prop :=
  (∀ s : State, s.cfg.wellFormed = true → step s = endResult (stepCore (beginStep s))) ∧
  (∀ (s : State) (x : Nibble), s.cfg.wellFormed = true → s.run = .awaitKey x →
    step s = .next (endStep (poll x (beginStep s)))) ∧
  (∀ s : State, ¬ (s.cfg.fontBase + 80 ≤ 0x200 ∧ s.cfg.fontBase + 255 * 5 < 65536 ∧ s.cfg.fontData.length = 80 ∧
      1 ≤ s.cfg.fbW ∧ 1 ≤ s.cfg.fbH) →
    step s = .refused .invalidConfiguration)

/-- What a step adds around the CORE's own step. Before it, the ticks the host gave (R115, D24; their number is the model's free
input, log entry 5), which change nothing in HALTED (R116, the spec's own decision D26), and the request is cleared (the model's
DESIGN CHOICE, log entry 17). After it, the next inputs are drawn: keys, random byte, pick and ticks, all free values (the model's
DESIGN CHOICE, log entry 3), and nothing else changes. -/
def Obligations.StepSurroundingsAreTicksAndInputs : Prop :=
  ∀ s : State,
    (s.run ≠ .halted → (beginStep s).dt.toNat = s.dt.toNat - s.inputs.ticks ∧
      (beginStep s).st.toNat = s.st.toNat - s.inputs.ticks) ∧
    (s.run = .halted → beginStep s = { s with request := .none }) ∧
    beginStep s = { s with dt := (beginStep s).dt, st := (beginStep s).st, request := .none } ∧
    (∀ a, readByte (beginStep s) a = readByte s a) ∧
    endStep s = { s with inputs := (endStep s).inputs, drawn := s.drawn + 1 } ∧
    (endStep s).inputs.keys = Config.freeKeys s.drawn ∧ (endStep s).inputs.rnd = Config.freeRnd s.drawn ∧
    (endStep s).inputs.pick = Config.freePick s.drawn ∧ (endStep s).inputs.ticks = Config.freeTicks s.drawn

/-- R40, R55 (the policy on a fetch is the spec's own decision D2): the fetched word is the byte at PC times 256 plus the byte
after it, each address taken mod 4096, wherever the policy raises nothing; where it raises, there is no word. -/
def Obligations.FetchIsBigEndian : Prop :=
  ∀ s : State,
    (s.cfg.addrPolicy = .wrap ∨ s.pc.toNat + 1 < 4096 →
      ∃ w, fetch s = some w ∧
        w.toNat = 256 * (readByte s (s.pc.toNat % 4096)).toNat + (readByte s ((s.pc.toNat + 1) % 4096)).toNat) ∧
    (s.cfg.addrPolicy = .fault → 4096 ≤ s.pc.toNat + 1 → fetch s = none)

/-- R60, R107, R110 (the spec's own decisions D25, D28): a step on an invalid word halts the CORE with InvalidOpcode at the fetch
address; but for the host's ticks nothing else has changed. -/
def Obligations.InvalidWordHaltsPrecisely : Prop :=
  ∀ (s : State) (w : Word), s.cfg.wellFormed = true → s.run = .running → fetch s = some w → decode w = .invalid w →
    ∃ t, step s = .next (endStep t) ∧ HaltedBy .invalidOpcode w (beginStep s) t ∧
      t.err = ⟨.invalidOpcode, s.pc, w⟩ ∧ t.pc = s.pc ∧ t.v = s.v ∧ t.fb = s.fb ∧ ∀ a, readByte t a = readByte s a

/-- R55, R107, R110 (the spec's own decisions D2, D25): under FAULT a fetch at 0xFFF or beyond halts the CORE with
OutOfBoundsAddress and opcode 0. -/
def Obligations.FetchOutOfBoundsHalts : Prop :=
  ∀ s : State, s.cfg.wellFormed = true → s.run = .running → s.cfg.addrPolicy = .fault → 4096 ≤ s.pc.toNat + 1 →
    ∃ t, step s = .next (endStep t) ∧ HaltedBy .outOfBoundsAddress 0x0000 (beginStep s) t ∧
      t.err = ⟨.outOfBoundsAddress, s.pc, 0x0000⟩ ∧ t.pc = s.pc

/-- R108, R116 (the spec's own decision D26): a step in HALTED changes nothing of the CORE (its request is NONE, and the model's
own inputs are drawn: log entry 3), and a tick in HALTED changes nothing. -/
def Obligations.HaltedStepAndTickChangeNothing : Prop :=
  ∀ s : State, s.cfg.wellFormed = true → s.run = .halted →
    (∃ t, step s = .next t ∧ t = { s with request := .none, inputs := t.inputs, drawn := s.drawn + 1 } ∧
      ∀ a, readByte t a = readByte s a) ∧
    tick s = s

/-- R108 (the spec's own decision D26): HALTED is absorbing over any number of steps, but for the request and the model's own
inputs (log entry 3). -/
def Obligations.HaltedIsAbsorbing : Prop :=
  ∀ (k : Nat) (s : State), s.cfg.wellFormed = true → s.run = .halted →
    ∃ t, Sys2Proof.core.run k s = .next t ∧
      t = { s with request := t.request, inputs := t.inputs, drawn := s.drawn + k }

/-- R114: a tick decrements each timer that is above zero and changes nothing else; in HALTED it changes nothing (R116, the spec's own
decision D26). Sound is active exactly while ST is above zero (R117). -/
def Obligations.TickDecrementsTimers : Prop :=
  ∀ s : State,
    (s.run ≠ .halted →
      ((0 < s.dt.toNat → (tick s).dt.toNat + 1 = s.dt.toNat) ∧ (s.dt.toNat = 0 → (tick s).dt = s.dt)) ∧
      ((0 < s.st.toNat → (tick s).st.toNat + 1 = s.st.toNat) ∧ (s.st.toNat = 0 → (tick s).st = s.st))) ∧
    (s.run = .halted → tick s = s) ∧
    tick s = { s with dt := (tick s).dt, st := (tick s).st } ∧
    (∀ a, readByte (tick s) a = readByte s a) ∧
    (soundActive s = true ↔ 0 < s.st.toNat)

/-- R115 (the spec's own decision D24): a tick and an instruction that neither reads nor writes a timer may be taken in either
order. -/
def Obligations.TickCommutesWithNonTimerInstructions : Prop :=
  ∀ (i : Instr) (s t : State), (∀ x, i ≠ .ldVxDT x ∧ i ≠ .ldDTVx x ∧ i ≠ .ldSTVx x) → s.run ≠ .halted →
    exec i s = .next t → t.run ≠ .halted → exec i (tick s) = .next (tick t)

/-! ## The key wait -/

/-- R104, R118 (the spec's own decisions D14, D15, D16, D31): the poll of a step in AWAIT_KEY. Where no key resolves it, only
KEY_PREV changes, under EDGE. Where one does, its number goes to Vx, PC moves past the LD Vx,K, and the CORE is RUNNING; the key
is a pressed one, under EDGE a newly pressed one, and under LOWEST the lowest such. Nothing else changes. -/
def Obligations.PollStoresKeyOrRetries : Prop :=
  ∀ (s : State) (x : Nibble), s.run = .awaitKey x →
    (s.cfg.keyWaitMode = .level → s.inputs.keys = 0 → stepCore s = .next s) ∧
    (s.cfg.keyWaitMode = .edge → s.inputs.keys &&& ~~~s.keyPrev = 0 →
      stepCore s = .next { s with keyPrev := s.inputs.keys }) ∧
    (∀ p : BitVec 16, (s.cfg.keyWaitMode = .level → p = s.inputs.keys) →
      (s.cfg.keyWaitMode = .edge → p = s.inputs.keys &&& ~~~s.keyPrev) → p ≠ 0 →
      ∃ (t : State) (k : Nibble), stepCore s = .next t ∧ p.getLsbD k.toNat = true ∧
        (s.cfg.keySelect = .lowest → ∀ j < k.toNat, p.getLsbD j = false) ∧
        (∀ r, (getV t r).toNat = if r = x then k.toNat else (getV s r).toNat) ∧
        InSequence s t ∧ t.run = .running ∧
        t.keyPrev = (if s.cfg.keyWaitMode = .edge then s.inputs.keys else s.keyPrev) ∧
        t = { s with v := t.v, pc := t.pc, run := .running, keyPrev := t.keyPrev, request := .keyDone x k } ∧
        ∀ a, readByte t a = readByte s a)

/-- R105 (the spec's own decision D16): under LOWEST the selected key is the lowest pressed one; under a draw (the model's input
`pick`, log entry 15) it is a pressed one, and every pressed key can be it. -/
def Obligations.SelectChoosesPressedKey : Prop :=
  ∀ (cfg : Config) (p : BitVec 16), p ≠ 0 →
    (cfg.keySelect = .lowest → ∀ pick, p.getLsbD (select cfg pick p).toNat = true ∧
      ∀ j < (select cfg pick p).toNat, p.getLsbD j = false) ∧
    (cfg.keySelect = .any → (∀ pick, p.getLsbD (select cfg pick p).toNat = true) ∧
      ∀ k : Nibble, p.getLsbD k.toNat = true → ∃ pick, select cfg pick p = k)

/-- R104, C4 (derived in the spec from R103 and R104): under LEVEL a poll that resolves leaves the state that executing the
LD Vx,K again would leave, but for the request (log entry 23). -/
def Obligations.ResolvingPollEqualsReexecution : Prop :=
  ∀ (s : State) (x : Nibble), s.run = .awaitKey x → s.cfg.keyWaitMode = .level → s.inputs.keys ≠ 0 →
    ∃ t u, stepCore s = .next t ∧ exec (.ldVxK x) { s with run := .running } = .next u ∧
      t = { u with request := t.request }

/-- R103 (the spec's own decisions D14, D15), with the requests of R118 (D31): LD Vx,K. Under LEVEL with a key pressed it resolves at
once, and emits no request (log entry 23, DEDUCED); else it waits, with PC held at its own address, and emits KEY_WAIT. -/
def Obligations.KeyWaitResolvesOrBlocks : Prop :=
  ∀ (s : State) (x : Nibble),
    (s.cfg.keyWaitMode = .level → s.inputs.keys ≠ 0 →
      ∃ (t : State) (k : Nibble), exec (.ldVxK x) s = .next t ∧ s.inputs.keys.getLsbD k.toNat = true ∧
        (s.cfg.keySelect = .lowest → ∀ j < k.toNat, s.inputs.keys.getLsbD j = false) ∧
        (∀ r, (getV t r).toNat = if r = x then k.toNat else (getV s r).toNat) ∧ InSequence s t ∧ OnlyRegsAndPC s t) ∧
    (s.cfg.keyWaitMode = .level → s.inputs.keys = 0 →
      exec (.ldVxK x) s = .next { s with run := .awaitKey x, request := .keyWait x }) ∧
    (s.cfg.keyWaitMode = .edge →
      exec (.ldVxK x) s = .next { s with keyPrev := s.inputs.keys, run := .awaitKey x, request := .keyWait x })

/-! ## Invariants -/

/-- Every step keeps the invariant `State.Inv`, from every state that has it (R6, R17, R19, R24, R25, R33, R104, R106, R107). -/
def Obligations.StepKeepsInvariant : Prop :=
  ∀ s t : State, s.Inv → step s = .next t → t.Inv

/-- The reset state has the invariant; so has the state that the reset input gives from any state with a configuration that satisfies
R6 (R125, the spec's own decision D30); and the loader keeps it outside AWAIT_KEY (R39, R128: it writes between reset and the first
step). So a run with a program starts in a state that has it. -/
def Obligations.ResetHasInvariant : Prop :=
  State.reset.Inv ∧
  (∀ s : State, s.cfg.wellFormed = true → (assertReset s).Inv) ∧
  ∀ (s t : State) (image : List Byte), s.Inv → (∀ x, s.run ≠ .awaitKey x) → loadImage image s = .next t → t.Inv

/-- From every state that has the invariant, a step answers a next state: every error is a halt (R107), every instruction may
execute at every time (R113), and nothing faults or is refused. -/
def Obligations.InvariantStatesAlwaysStep : Prop :=
  ∀ s : State, s.Inv → ∃ t, step s = .next t

/-! ## Reset, boot, the loader -/

/-- R31 (RUN, ERR and KEY_PREV by the spec's own decision D30, FB by D22, the font bytes by D19): the values of every piece of state
after reset. -/
def Obligations.ResetValues : Prop :=
  (∀ x, getV State.reset x = 0x00) ∧ State.reset.i = 0x0000 ∧ State.reset.pc = 0x0200 ∧ State.reset.sp = 0 ∧
  (∀ (k : Nat) (h : k < 16), State.reset.stack[k] = 0x0000) ∧ State.reset.dt = 0 ∧ State.reset.st = 0 ∧
  State.reset.run = .running ∧ State.reset.err = ⟨.none, 0, 0⟩ ∧ State.reset.keyPrev = 0x0000 ∧
  (∀ c r, pixelOn State.reset c r = false) ∧
  (∀ a, a < 0x050 ∨ 0x0A0 ≤ a → readByte State.reset a = 0x00) ∧
  (∀ k (h : k < fontTable.length), readByte State.reset (0x050 + k) = fontTable[k])

/-- R125 (the spec's own decision D30): reset, from any state, HALTED included, gives the reset values; memory holds the font at
FONT_BASE and zero elsewhere. -/
def Obligations.ResetInputRestoresResetState : Prop :=
  ∀ s : State, s.cfg.wellFormed = true →
    (∀ x, getV (assertReset s) x = 0) ∧ (assertReset s).i = 0 ∧ (assertReset s).pc = 0x200 ∧ (assertReset s).sp = 0 ∧
    (∀ (k : Nat) (h : k < 16), (assertReset s).stack[k] = 0) ∧ (assertReset s).dt = 0 ∧ (assertReset s).st = 0 ∧
    (assertReset s).run = .running ∧ (assertReset s).err = ⟨.none, 0, 0⟩ ∧ (assertReset s).keyPrev = 0 ∧
    (∀ c r, pixelOn (assertReset s) c r = false) ∧
    (∀ k (h : k < s.cfg.fontData.length), readByte (assertReset s) (s.cfg.fontBase + k) = s.cfg.fontData[k]) ∧
    (∀ a, a < s.cfg.fontBase ∨ s.cfg.fontBase + 80 ≤ a → readByte (assertReset s) a = 0) ∧
    (assertReset s).cfg = s.cfg

/-- R128 (the spec's own decisions D30, D25): a step after reset with no image loaded halts with InvalidOpcode(0x200, 0x0000). -/
def Obligations.StepWithoutImageHalts : Prop :=
  ∃ t, step State.reset = .next t ∧ t.run = .halted ∧ t.err = ⟨.invalidOpcode, 0x200, 0x0000⟩ ∧ t.pc = 0x200

/-- R39 (the size by C9; the refusal is the loader's, I14, log entry 7): the loader writes an image of at most 3584 bytes at 0x200 and
up and changes nothing else; a larger one is refused. -/
def Obligations.LoaderWritesImageAt200 : Prop :=
  ∀ (s : State) (image : List Byte),
    (image.length ≤ 3584 → ∃ t, loadImage image s = .next t ∧
      (∀ k (h : k < image.length), readByte t (0x200 + k) = image[k]) ∧
      (∀ a, a < 0x200 ∨ 0x200 + image.length ≤ a → readByte t a = readByte s a) ∧ t = { s with mem := t.mem }) ∧
    (3584 < image.length → loadImage image s = .refused .oversizeImage)

/-! ## Rules over all instructions -/

/-- R107, R110 (the spec's own decisions D25, D28): every error is precise. Where the CORE's step, or one instruction, ends in
HALTED, it has written nothing but RUN, ERR and the request, and ERR names the fetch address and the fetched word, or the word 0
where the fetch itself failed. -/
def Obligations.ErrorsArePrecise : Prop :=
  (∀ (i : Instr) (s t : State), s.run ≠ .halted → exec i s = .next t → t.run = .halted →
    ∃ kind, kind ≠ .none ∧ HaltedBy kind (encode i) s t) ∧
  (∀ s t : State, s.run ≠ .halted → stepCore s = .next t → t.run = .halted →
    ∃ kind w, kind ≠ .none ∧ HaltedBy kind w s t ∧
      (fetch s = some w ∨ fetch s = none ∧ kind = .outOfBoundsAddress ∧ w = 0x0000))

/-- R109 (derived in the spec from R55, R60, R66, R68, R92 to R94, R96): which fetch, word or instruction raises which error, and
exactly when. -/
def Obligations.WhatRaisesWhichError : Prop :=
  (∀ s : State, fetch s = none ↔ s.cfg.addrPolicy = .fault ∧ 4096 ≤ s.pc.toNat + 1) ∧
  (∀ (s : State) (w : Word), fetch s = some w →
    (fetchDecode s = .error (raise .invalidOpcode w s) ↔ ∀ r ∈ opcodeMap, w &&& r.mask ≠ r.value)) ∧
  (∀ (i : Instr) (s : State) (kind : ErrorKind), s.run ≠ .halted →
    ((∃ t, exec i s = .next t ∧ t.run = .halted ∧ t.err.kind = kind) ↔
      (kind = .stackOverflow ∧ s.sp = 16 ∧ ∃ nnn, i = .callAddr nnn) ∨
      (kind = .stackUnderflow ∧ s.sp = 0 ∧ i = .ret) ∨
      (kind = .outOfBoundsAddress ∧ s.cfg.addrPolicy = .fault ∧
        ((∃ x y n, i = .drwVxVyN x y n ∧ 0 < n.toNat ∧ 4096 ≤ s.i.toNat + n.toNat - 1) ∨
         (∃ x, i = .ldBVx x ∧ 4096 ≤ s.i.toNat + 2) ∨
         (∃ x, i = .ldMemIVx x ∧ 4096 ≤ s.i.toNat + x.toNat) ∨
         (∃ x, i = .ldVxMemI x ∧ 4096 ≤ s.i.toNat + x.toNat)))))

/-- R14 to R17, R19 to R22, R24 to R26, R29 (I unchanged by the memory instructions: the spec's own decision D8; VF: D6, D7, D40; the
precise halt: D25; the requests: D31; the key wait: D14): each piece of state is written by its own instructions only. RUN and ERR by
LD Vx,K (RUN alone) and by an error; the configuration and the model's own input fields by none (log entries 1 and 3). -/
def Obligations.EachStateHasItsOwnWriters : Prop :=
  ∀ (i : Instr) (s t : State), exec i s = .next t →
    (t.cfg = s.cfg ∧ t.inputs = s.inputs ∧ t.drawn = s.drawn) ∧
    (∀ r, writesReg s.cfg i r = false → getV t r = getV s r) ∧
    ((t.run = s.run ∧ t.err = s.err) ∨ (∃ x, i = .ldVxK x ∧ t.run = .awaitKey x ∧ t.err = s.err) ∨
      ∃ kind, kind ≠ .none ∧ HaltedBy kind (encode i) s t) ∧
    (setsPC i = false → InSequence s t ∨ ∃ kind, kind ≠ .none ∧ HaltedBy kind (encode i) s t) ∧
    ((∀ nnn, i ≠ .callAddr nnn) → t.stack = s.stack) ∧
    ((∀ nnn, i ≠ .callAddr nnn) → i ≠ .ret → t.sp = s.sp) ∧
    ((∀ nnn, i ≠ .ldIAddr nnn) → (∀ x, i ≠ .addIVx x ∧ i ≠ .ldFVx x) → t.i = s.i) ∧
    ((∀ x, i ≠ .ldDTVx x) → t.dt = s.dt) ∧
    ((∀ x, i ≠ .ldSTVx x) → t.st = s.st) ∧
    ((∀ x, i ≠ .ldVxK x) → t.keyPrev = s.keyPrev) ∧
    (i ≠ .cls → (∀ x y n, i ≠ .drwVxVyN x y n) → t.fb = s.fb) ∧
    ((∀ x, i ≠ .ldBVx x ∧ i ≠ .ldMemIVx x) → ∀ a, readByte t a = readByte s a) ∧
    (i ≠ .cls → (∀ x y n, i ≠ .drwVxVyN x y n) → (∀ x, i ≠ .ldDTVx x ∧ i ≠ .ldSTVx x ∧ i ≠ .ldVxK x) →
      t.request = s.request ∨ ∃ kind, kind ≠ .none ∧ HaltedBy kind (encode i) s t)

/-- R15, R16, R75 (the spec's own decisions D6, D7, D40): an instruction that does not write VF as a flag leaves it alone unless VF
is its named destination (for LD Vx,[I] with x = F, in the block it loads); one that does, and completes, leaves 0x00 or 0x01 in it. -/
def Obligations.VFIsWrittenAsFlagOrDestination : Prop :=
  ∀ (i : Instr) (s t : State), s.run ≠ .halted → exec i s = .next t →
    (writesFlag s.cfg i = false →
      (∀ kk, i ≠ .ldVxKk 0xF kk ∧ i ≠ .addVxKk 0xF kk ∧ i ≠ .rndVxKk 0xF kk) →
      (∀ y, i ≠ .ldVxVy 0xF y ∧ i ≠ .orVxVy 0xF y ∧ i ≠ .andVxVy 0xF y ∧ i ≠ .xorVxVy 0xF y) →
      i ≠ .ldVxDT 0xF → i ≠ .ldVxK 0xF → i ≠ .ldVxMemI 0xF → getV t 0xF = getV s 0xF) ∧
    (writesFlag s.cfg i = true → t.run ≠ .halted → getV t 0xF = 0x00 ∨ getV t 0xF = 0x01)

/-- R118 (the spec's own decision D31; an LD Vx,K that resolves at once emits NONE: log entry 23): the request of each instruction,
executed with no request yet. -/
def Obligations.EachInstructionEmitsItsRequest : Prop :=
  ∀ (i : Instr) (s t : State), s.request = .none → s.run = .running → exec i s = .next t →
    (t.run = .halted → t.request = .halt t.err) ∧
    (i = .cls → t.request = .fbClear) ∧
    (∀ x y n, i = .drwVxVyN x y n → t.run = .running →
      t.request = .fbDraw (getV s x) (getV s y) n s.i (decide (getV t 0xF = 0x01))) ∧
    (∀ x, i = .ldVxK x → t.request = if t.run = .awaitKey x then .keyWait x else .none) ∧
    (∀ x, i = .ldDTVx x → t.request = .timerLoad .delay (getV s x)) ∧
    (∀ x, i = .ldSTVx x → t.request = .timerLoad .sound (getV s x)) ∧
    (t.run = .running → i ≠ .cls → (∀ x y n, i ≠ .drwVxVyN x y n) → (∀ x, i ≠ .ldDTVx x ∧ i ≠ .ldSTVx x) →
      t.request = .none)

/-- R28, R87 (the byte as an input of the step is the spec's own decision D23): the random byte reaches RND alone: no other
instruction's outcome depends on it. -/
def Obligations.RandomByteReachesOnlyRnd : Prop :=
  ∀ (i : Instr) (s : State) (r : Byte), (∀ x kk, i ≠ .rndVxKk x kk) →
    exec i (s.withRnd r) = mapNext (State.withRnd r) (exec i s)

/-- R27 (KEYS as an input of the step is the spec's own decision D32): the keypad reaches SKP, SKNP and LD Vx,K alone. -/
def Obligations.KeysReachOnlyKeyInstructions : Prop :=
  ∀ (i : Instr) (s : State) (keys : BitVec 16) (pick : Nibble), (∀ x, i ≠ .skpVx x ∧ i ≠ .sknpVx x ∧ i ≠ .ldVxK x) →
    exec i (s.withKeys keys pick) = mapNext (State.withKeys keys pick) (exec i s)

/-! ## Control flow -/

/-- R66 (the precise halt is the spec's own decision D25, the kept entry D36): RET pops PC and leaves the entry in place, or halts
with StackUnderflow when nothing is pushed. -/
def Obligations.RetPopsOrUnderflows : Prop :=
  ∀ s : State,
    (∀ (k : Nat) (h : k < 16), s.sp.toNat = k + 1 →
      ∃ t, exec .ret s = .next t ∧ t.sp.toNat = k ∧ t.pc = s.stack[k] ∧ t = { s with sp := t.sp, pc := t.pc } ∧
        ∀ a, readByte t a = readByte s a) ∧
    (s.sp.toNat = 0 → ∃ t, exec .ret s = .next t ∧ HaltedBy .stackUnderflow 0x00EE s t)

/-- R68 (the full stack at SP = 16 by C1 and the spec's own decision D5, the precise halt by D25): CALL pushes the post-fetch PC and
jumps, or halts with StackOverflow when 16 entries are held. -/
def Obligations.CallPushesOrOverflows : Prop :=
  ∀ (s : State) (nnn : Addr12),
    (∀ h : s.sp.toNat < 16, ∃ t, exec (.callAddr nnn) s = .next t ∧ t.sp.toNat = s.sp.toNat + 1 ∧
      t.stack[s.sp.toNat].toNat = (s.pc.toNat + 2) % 65536 ∧
      (∀ (k : Nat) (hk : k < 16), k ≠ s.sp.toNat → t.stack[k] = s.stack[k]) ∧ t.pc.toNat = nnn.toNat ∧
      t = { s with stack := t.stack, sp := t.sp, pc := t.pc } ∧ ∀ a, readByte t a = readByte s a) ∧
    (s.sp.toNat = 16 → ∃ t, exec (.callAddr nnn) s = .next t ∧ HaltedBy .stackOverflow (encode (.callAddr nnn)) s t)

/-- R68, R66 (the entry kept by the spec's own decision D36): CALL followed immediately by RET returns PC to the instruction after
the CALL, with every register unchanged. -/
def Obligations.CallThenRetReturnsAfterCall : Prop :=
  ∀ (s : State) (nnn : Addr12), s.sp.toNat < 16 →
    ∃ t u, exec (.callAddr nnn) s = .next t ∧ exec .ret t = .next u ∧ InSequence s u ∧
      u = { s with pc := u.pc, stack := u.stack } ∧ ∀ (k : Nat) (h : k < 16), k ≠ s.sp.toNat → u.stack[k] = s.stack[k]

/-- R67, R73: JP addr sets PC to nnn; JP V0,addr to nnn + V0, not reduced. -/
def Obligations.JumpsSetPC : Prop :=
  ∀ (s : State) (nnn : Addr12),
    (∃ t, exec (.jpAddr nnn) s = .next t ∧ t.pc.toNat = nnn.toNat ∧ OnlyPC s t) ∧
    (∃ t, exec (.jpV0Addr nnn) s = .next t ∧ t.pc.toNat = nnn.toNat + (getV s 0x0).toNat ∧ OnlyPC s t)

/-- R69, R70: SE and SNE with an immediate skip one word or none. -/
def Obligations.SkipsOnImmediate : Prop :=
  ∀ (s : State) (x : Nibble) (kk : Byte),
    (∃ t, exec (.seVxKk x kk) s = .next t ∧
      t.pc.toNat = (s.pc.toNat + if (getV s x).toNat = kk.toNat then 4 else 2) % 65536 ∧ OnlyPC s t) ∧
    (∃ t, exec (.sneVxKk x kk) s = .next t ∧
      t.pc.toNat = (s.pc.toNat + if (getV s x).toNat = kk.toNat then 2 else 4) % 65536 ∧ OnlyPC s t)

/-- R71, R72: SE and SNE with two registers skip one word or none. -/
def Obligations.SkipsOnRegisters : Prop :=
  ∀ (s : State) (x y : Nibble),
    (∃ t, exec (.seVxVy x y) s = .next t ∧
      t.pc.toNat = (s.pc.toNat + if (getV s x).toNat = (getV s y).toNat then 4 else 2) % 65536 ∧ OnlyPC s t) ∧
    (∃ t, exec (.sneVxVy x y) s = .next t ∧
      t.pc.toNat = (s.pc.toNat + if (getV s x).toNat = (getV s y).toNat then 2 else 4) % 65536 ∧ OnlyPC s t)

/-! ## Arithmetic and register moves -/

/-- R76, R78, R100: LD Vx,kk, LD Vx,Vy and LD Vx,DT write their source to Vx and nothing else. -/
def Obligations.LoadsWriteDestination : Prop :=
  ∀ (s : State) (x y : Nibble) (kk : Byte),
    (∃ t, exec (.ldVxKk x kk) s = .next t ∧ (∀ r, getV t r = if r = x then kk else getV s r) ∧ InSequence s t ∧
      OnlyRegsAndPC s t) ∧
    (∃ t, exec (.ldVxVy x y) s = .next t ∧ (∀ r, getV t r = if r = x then getV s y else getV s r) ∧ InSequence s t ∧
      OnlyRegsAndPC s t) ∧
    (∃ t, exec (.ldVxDT x) s = .next t ∧ (∀ r, getV t r = if r = x then s.dt else getV s r) ∧ InSequence s t ∧
      OnlyRegsAndPC s t)

/-- R77: ADD Vx,kk adds mod 256 and never touches VF (unless x = F, when VF is the destination). -/
def Obligations.AddImmediateWrapsWithoutFlag : Prop :=
  ∀ (s : State) (x : Nibble) (kk : Byte), ∃ t, exec (.addVxKk x kk) s = .next t ∧
    (∀ r, (getV t r).toNat = if r = x then ((getV s x).toNat + kk.toNat) % 256 else (getV s r).toNat) ∧
    InSequence s t ∧ OnlyRegsAndPC s t

/-- R79, R80, R81 (VF unchanged by the spec's own decision D40): OR, AND and XOR combine bit by bit into Vx, with no flag. -/
def Obligations.BitwiseCombinesIntoVx : Prop :=
  ∀ (s : State) (x y : Nibble),
    (∃ t, exec (.orVxVy x y) s = .next t ∧ (∀ j, (getV t x).getLsbD j = ((getV s x).getLsbD j || (getV s y).getLsbD j)) ∧
      (∀ r, r ≠ x → getV t r = getV s r) ∧ InSequence s t ∧ OnlyRegsAndPC s t) ∧
    (∃ t, exec (.andVxVy x y) s = .next t ∧ (∀ j, (getV t x).getLsbD j = ((getV s x).getLsbD j && (getV s y).getLsbD j)) ∧
      (∀ r, r ≠ x → getV t r = getV s r) ∧ InSequence s t ∧ OnlyRegsAndPC s t) ∧
    (∃ t, exec (.xorVxVy x y) s = .next t ∧ (∀ j, (getV t x).getLsbD j = ((getV s x).getLsbD j ^^ (getV s y).getLsbD j)) ∧
      (∀ r, r ≠ x → getV t r = getV s r) ∧ InSequence s t ∧ OnlyRegsAndPC s t)

/-- R82, R75 (the order of the two writes is the spec's own decision D6, C2): ADD Vx,Vy: the sum mod 256 to Vx, then the carry to VF,
which wins when x = F. -/
def Obligations.AddWritesSumThenCarry : Prop :=
  ∀ (s : State) (x y : Nibble), ∃ t, exec (.addVxVy x y) s = .next t ∧
    (∀ r, (getV t r).toNat =
      if r = 0xF then (if (getV s x).toNat + (getV s y).toNat > 255 then 1 else 0)
      else if r = x then ((getV s x).toNat + (getV s y).toNat) % 256
      else (getV s r).toNat) ∧
    InSequence s t ∧ OnlyRegsAndPC s t

/-- R83, R75 (the order by D6, C2): SUB Vx,Vy: the difference mod 256 to Vx, then the NOT-borrow to VF. -/
def Obligations.SubWritesDifferenceThenNotBorrow : Prop :=
  ∀ (s : State) (x y : Nibble), ∃ t, exec (.subVxVy x y) s = .next t ∧
    (∀ r, (getV t r).toNat =
      if r = 0xF then (if (getV s x).toNat ≥ (getV s y).toNat then 1 else 0)
      else if r = x then ((getV s x).toNat + 256 - (getV s y).toNat) % 256
      else (getV s r).toNat) ∧
    InSequence s t ∧ OnlyRegsAndPC s t

/-- R84, R75 (the order by D6, C2): SUBN Vx,Vy: the reverse difference mod 256 to Vx, then the NOT-borrow to VF. -/
def Obligations.SubnWritesDifferenceThenNotBorrow : Prop :=
  ∀ (s : State) (x y : Nibble), ∃ t, exec (.subnVxVy x y) s = .next t ∧
    (∀ r, (getV t r).toNat =
      if r = 0xF then (if (getV s y).toNat ≥ (getV s x).toNat then 1 else 0)
      else if r = x then ((getV s y).toNat + 256 - (getV s x).toNat) % 256
      else (getV s r).toNat) ∧
    InSequence s t ∧ OnlyRegsAndPC s t

/-- R85, R86, R61, R75 (the order by D6, the ignored y by D9): SHR halves Vx with old bit 0 to VF, SHL doubles it mod 256 with old
bit 7 to VF; y is ignored. -/
def Obligations.ShiftsWriteShiftedOutBit : Prop :=
  ∀ (s : State) (x y : Nibble),
    (∃ t, exec (.shrVx x y) s = .next t ∧
      (∀ r, (getV t r).toNat = if r = 0xF then (getV s x).toNat % 2 else if r = x then (getV s x).toNat / 2
        else (getV s r).toNat) ∧ InSequence s t ∧ OnlyRegsAndPC s t) ∧
    (∃ t, exec (.shlVx x y) s = .next t ∧
      (∀ r, (getV t r).toNat = if r = 0xF then (getV s x).toNat / 128 else if r = x then 2 * (getV s x).toNat % 256
        else (getV s r).toNat) ∧ InSequence s t ∧ OnlyRegsAndPC s t)

/-- R87 (the byte as a free input of the step is the spec's own decision D23; the model holds it in State, log entry 3): RND Vx,kk
writes the step's random byte under the mask kk: a bit of Vx is the byte's bit where kk has a 1, and 0 where kk has a 0. The byte
is an input, so this holds for every value of it. -/
def Obligations.RndWritesMaskedRandomByte : Prop :=
  ∀ (s : State) (x : Nibble) (kk : Byte), ∃ t, exec (.rndVxKk x kk) s = .next t ∧
    (∀ j, (getV t x).getLsbD j = (s.inputs.rnd.getLsbD j && kk.getLsbD j)) ∧ (∀ r, r ≠ x → getV t r = getV s r) ∧
    InSequence s t ∧ OnlyRegsAndPC s t

/-! ## Index register and memory -/

/-- R89, R91: LD I,addr and LD F,Vx write I and nothing else. -/
def Obligations.IndexLoadsWriteI : Prop :=
  ∀ (s : State) (nnn : Addr12) (x : Nibble),
    (∃ t, exec (.ldIAddr nnn) s = .next t ∧ t.i.toNat = nnn.toNat ∧ InSequence s t ∧ t = { s with i := t.i, pc := t.pc } ∧
      ∀ a, readByte t a = readByte s a) ∧
    (∃ t, exec (.ldFVx x) s = .next t ∧ t.i.toNat = (s.cfg.fontBase + 5 * (getV s x).toNat) % 65536 ∧ InSequence s t ∧
      t = { s with i := t.i, pc := t.pc } ∧ ∀ a, readByte t a = readByte s a)

/-- R90: ADD I,Vx adds mod 4096. Where ADD_I_SETS_VF is false it leaves VF alone (the spec's own decision D7); where it is true it
writes VF with the overflow past 0xFFF, computed from the operands as read first, x = F included (log entry 22, DEDUCED). -/
def Obligations.AddIndexWrapsAt4096 : Prop :=
  ∀ (s : State) (x : Nibble), ∃ t, exec (.addIVx x) s = .next t ∧ t.i.toNat = (s.i.toNat + (getV s x).toNat) % 4096 ∧
    (s.cfg.addISetsVF = false → t.v = s.v) ∧
    (s.cfg.addISetsVF = true → ∀ r, (getV t r).toNat =
      if r = 0xF then (if s.i.toNat + (getV s x).toNat > 0xFFF then 1 else 0) else (getV s r).toNat) ∧
    InSequence s t ∧ t = { s with v := t.v, i := t.i, pc := t.pc } ∧ ∀ a, readByte t a = readByte s a

/-- R92 (I unchanged by the spec's own decision D8, the precise halt by D25): LD B,Vx stores the three decimal digits at I, I + 1,
I + 2 under the address policy, and changes no other byte; under FAULT it halts, with nothing written, when a digit's address is
4096 or more. -/
def Obligations.LdBStoresDecimalDigits : Prop :=
  ∀ (s : State) (x : Nibble),
    (¬ BlockOutOfBounds s 3 → ∃ t, exec (.ldBVx x) s = .next t ∧
      (∀ a, addr s.cfg s.i.toNat = some a → (readByte t a).toNat = (getV s x).toNat / 100) ∧
      (∀ a, addr s.cfg (s.i.toNat + 1) = some a → (readByte t a).toNat = (getV s x).toNat / 10 % 10) ∧
      (∀ a, addr s.cfg (s.i.toNat + 2) = some a → (readByte t a).toNat = (getV s x).toNat % 10) ∧
      (∀ a, (∀ k < 3, addr s.cfg (s.i.toNat + k) ≠ some a) → readByte t a = readByte s a) ∧
      InSequence s t ∧ t = { s with mem := t.mem, pc := t.pc }) ∧
    (BlockOutOfBounds s 3 → ∃ t, exec (.ldBVx x) s = .next t ∧ HaltedBy .outOfBoundsAddress (encode (.ldBVx x)) s t)

/-- R93 (I unchanged by the spec's own decision D8, the precise halt by D25): LD [I],Vx stores V0 to Vx, inclusive, at I to I + x under
the address policy, and changes no other byte; under FAULT it halts, with nothing written, when one of the addresses is 4096 or more. -/
def Obligations.BlockStoreWritesV0ToVx : Prop :=
  ∀ (s : State) (x : Nibble),
    (¬ BlockOutOfBounds s (x.toNat + 1) → ∃ t, exec (.ldMemIVx x) s = .next t ∧
      (∀ (r : Nibble) (a : Nat), r.toNat ≤ x.toNat → addr s.cfg (s.i.toNat + r.toNat) = some a →
        readByte t a = getV s r) ∧
      (∀ a, (∀ k ≤ x.toNat, addr s.cfg (s.i.toNat + k) ≠ some a) → readByte t a = readByte s a) ∧
      InSequence s t ∧ t = { s with mem := t.mem, pc := t.pc }) ∧
    (BlockOutOfBounds s (x.toNat + 1) →
      ∃ t, exec (.ldMemIVx x) s = .next t ∧ HaltedBy .outOfBoundsAddress (encode (.ldMemIVx x)) s t)

/-- R94 (I unchanged by the spec's own decision D8, the precise halt by D25): LD Vx,[I] loads V0 to Vx, inclusive, from I to I + x under
the address policy, and leaves the registers above x and I alone; under FAULT it halts, with nothing written, when one of the
addresses is 4096 or more. -/
def Obligations.BlockLoadReadsV0ToVx : Prop :=
  ∀ (s : State) (x : Nibble),
    (¬ BlockOutOfBounds s (x.toNat + 1) → ∃ t, exec (.ldVxMemI x) s = .next t ∧
      (∀ (r : Nibble) (a : Nat), r.toNat ≤ x.toNat → addr s.cfg (s.i.toNat + r.toNat) = some a →
        getV t r = readByte s a) ∧
      (∀ r : Nibble, x.toNat < r.toNat → getV t r = getV s r) ∧ InSequence s t ∧ OnlyRegsAndPC s t) ∧
    (BlockOutOfBounds s (x.toNat + 1) →
      ∃ t, exec (.ldVxMemI x) s = .next t ∧ HaltedBy .outOfBoundsAddress (encode (.ldVxMemI x)) s t)

/-- R93, R94, R46 (I unchanged by the store: the spec's own decision D8): a block store and then a block load of the same registers gives
them back, whatever was in V between. -/
def Obligations.BlockStoreThenLoadRestores : Prop :=
  ∀ (s t : State) (x : Nibble) (v : Vector Byte 16), ¬ BlockOutOfBounds s (x.toNat + 1) → exec (.ldMemIVx x) s = .next t →
    ∃ u, exec (.ldVxMemI x) { t with v := v } = .next u ∧ ∀ r : Nibble, r.toNat ≤ x.toNat → getV u r = getV s r

/-- R48, R130 (derived in the spec; its own decision D38; I as the store's base: D8): after a store instruction, LD B,Vx or LD [I],Vx,
under either policy, the next fetch reads each byte of its word as the store left it: the stored byte where the block reaches it, the
old byte where the block does not. -/
def Obligations.StoreIsSeenByNextFetch : Prop :=
  ∀ (s : State) (i : Instr) (x : Nibble), (i = .ldBVx x ∨ i = .ldMemIVx x) → ¬ BlockOutOfBounds s (storedBytes s i).length →
    (s.cfg.addrPolicy = .wrap ∨ s.pc.toNat + 3 < 4096) →
    ∃ t w, exec i s = .next t ∧ InSequence s t ∧ fetch t = some w ∧
      (∀ (k : Nat) (h : k < (storedBytes s i).length), (s.i.toNat + k) % 4096 = t.pc.toNat % 4096 →
        w.toNat / 256 = (storedBytes s i)[k].toNat) ∧
      (∀ (k : Nat) (h : k < (storedBytes s i).length), (s.i.toNat + k) % 4096 = (t.pc.toNat + 1) % 4096 →
        w.toNat % 256 = (storedBytes s i)[k].toNat) ∧
      ((∀ k < (storedBytes s i).length, (s.i.toNat + k) % 4096 ≠ t.pc.toNat % 4096) →
        w.toNat / 256 = (readByte s (t.pc.toNat % 4096)).toNat) ∧
      ((∀ k < (storedBytes s i).length, (s.i.toNat + k) % 4096 ≠ (t.pc.toNat + 1) % 4096) →
        w.toNat % 256 = (readByte s ((t.pc.toNat + 1) % 4096)).toNat)

/-! ## The framebuffer -/

/-- R95: CLS turns every pixel off, and touches nothing but the framebuffer (and the step's request). -/
def Obligations.ClsTurnsEveryPixelOff : Prop :=
  ∀ s : State, ∃ t, exec .cls s = .next t ∧ (∀ c r, pixelOn t c r = false) ∧ InSequence s t ∧
    t = { s with fb := t.fb, pc := t.pc, request := t.request } ∧ ∀ a, readByte t a = readByte s a

/-- R96 (the bit order by the spec's own decision D20, a pixel hit twice by D37, the precise halt by D25): DRW does what the loops of
R96's pseudocode do, on every size of framebuffer: the grid of pixels after it, and VF the collision; it changes nothing else but
the request. Under FAULT it halts, with nothing written, when a sprite address is 4096 or more. -/
def Obligations.DrwRefinesItsPseudocode : Prop :=
  ∀ (s : State) (x y n : Nibble),
    (¬ BlockOutOfBounds s n.toNat → ∃ t, exec (.drwVxVyN x y n) s = .next t ∧
      (∀ c r, pixelOn t c r = (refDraw s.cfg.fbW s.cfg.fbH (getV s x).toNat (getV s y).toNat n.toNat (spriteBitAt s)
        (pixelOn s)).1 c r) ∧
      (∀ r, (getV t r).toNat = if r = 0xF then
          (if (refDraw s.cfg.fbW s.cfg.fbH (getV s x).toNat (getV s y).toNat n.toNat (spriteBitAt s) (pixelOn s)).2
            then 1 else 0)
        else (getV s r).toNat) ∧
      InSequence s t ∧ t = { s with v := t.v, fb := t.fb, pc := t.pc, request := t.request } ∧
      ∀ a, readByte t a = readByte s a) ∧
    (BlockOutOfBounds s n.toNat →
      ∃ t, exec (.drwVxVyN x y n) s = .next t ∧ HaltedBy .outOfBoundsAddress (encode (.drwVxVyN x y n)) s t)

/-- R96, R16 (the bit order by the spec's own decision D20): at a size of at least 8 columns and 15 rows, a pixel is inverted exactly
when a set bit of the sprite falls on it, and VF is 1 exactly when such a pixel was on. -/
def Obligations.DrwInvertsSpritePixelsAndReportsCollision : Prop :=
  ∀ (s : State) (x y n : Nibble), ¬ BlockOutOfBounds s n.toNat → 8 ≤ s.cfg.fbW → 15 ≤ s.cfg.fbH →
    ∃ t, exec (.drwVxVyN x y n) s = .next t ∧
      (∀ c r, pixelOn t c r ≠ pixelOn s c r ↔ ∃ j < n.toNat, ∃ k < 8, spriteBitAt s j k = true ∧
        c = ((getV s x).toNat + k) % s.cfg.fbW ∧ r = ((getV s y).toNat + j) % s.cfg.fbH) ∧
      (getV t 0xF = 0x01 ↔ ∃ c r, pixelOn s c r = true ∧ pixelOn t c r = false)

/-- R97, law 2, first half (derived in the spec; the other half: log entry 18): a second DRW of the same sprite at the same
coordinates gives every pixel back, on every size of framebuffer. -/
def Obligations.DrwTwiceRestoresPixels : Prop :=
  ∀ (s t : State) (x y x' y' n : Nibble), ¬ BlockOutOfBounds s n.toNat → exec (.drwVxVyN x y n) s = .next t →
    getV t x' = getV s x → getV t y' = getV s y →
    ∃ u, exec (.drwVxVyN x' y' n) t = .next u ∧ ∀ c r, pixelOn u c r = pixelOn s c r

/-! ## Keypad and timer instructions -/

/-- R98, R99 (the low nibble is the spec's own decision D17): SKP and SKNP test the key that the low nibble of Vx names. -/
def Obligations.KeySkipsTestLowNibble : Prop :=
  ∀ (s : State) (x : Nibble),
    (∃ t, exec (.skpVx x) s = .next t ∧
      t.pc.toNat = (s.pc.toNat + if s.inputs.keys.getLsbD ((getV s x).toNat % 16) then 4 else 2) % 65536 ∧ OnlyPC s t) ∧
    (∃ t, exec (.sknpVx x) s = .next t ∧
      t.pc.toNat = (s.pc.toNat + if s.inputs.keys.getLsbD ((getV s x).toNat % 16) then 2 else 4) % 65536 ∧ OnlyPC s t)

/-- R101, R102: LD DT,Vx and LD ST,Vx load a timer and nothing else (but the step's request); loading ST a value above 0 makes sound
active at once. -/
def Obligations.TimerLoadsWriteTheirTimer : Prop :=
  ∀ (s : State) (x : Nibble),
    (∃ t, exec (.ldDTVx x) s = .next t ∧ t.dt = getV s x ∧ InSequence s t ∧
      t = { s with dt := t.dt, pc := t.pc, request := t.request } ∧
      ∀ a, readByte t a = readByte s a) ∧
    (∃ t, exec (.ldSTVx x) s = .next t ∧ t.st = getV s x ∧ (soundActive t = true ↔ 0 < (getV s x).toNat) ∧ InSequence s t ∧
      t = { s with st := t.st, pc := t.pc, request := t.request } ∧
      ∀ a, readByte t a = readByte s a)
end

