-- ==== Sys2Proof/Laws/Encoding.lean ====
section
/-! SUPPORT. The fields of a word and the words of the formats (R51, R52), as numbers; each field read back from each
format. -/

namespace Sys2Proof

theorem zext8_toNat (n : Nibble) : (zext8 n).toNat = n.toNat := by
  simp only [zext8, BitVec.truncate_eq_setWidth, BitVec.toNat_setWidth]
  have := n.isLt
  omega

theorem zext16_toNat (a : Addr12) : (zext16 a).toNat = a.toNat := by
  simp only [zext16, BitVec.truncate_eq_setWidth, BitVec.toNat_setWidth]
  have := a.isLt
  omega

theorem zext16Byte_toNat (b : Byte) : (zext16Byte b).toNat = b.toNat := by
  simp only [zext16Byte, BitVec.truncate_eq_setWidth, BitVec.toNat_setWidth]
  have := b.isLt
  omega

theorem opField_toNat (w : Word) : (opField w).toNat = w.toNat / 4096 % 16 := by
  simp [opField, BitVec.extractLsb'_toNat, Nat.shiftRight_eq_div_pow]

theorem xField_toNat (w : Word) : (xField w).toNat = w.toNat / 256 % 16 := by
  simp [xField, BitVec.extractLsb'_toNat, Nat.shiftRight_eq_div_pow]

theorem yField_toNat (w : Word) : (yField w).toNat = w.toNat / 16 % 16 := by
  simp [yField, BitVec.extractLsb'_toNat, Nat.shiftRight_eq_div_pow]

theorem nField_toNat (w : Word) : (nField w).toNat = w.toNat % 16 := by
  simp [nField, BitVec.extractLsb'_toNat]

theorem kkField_toNat (w : Word) : (kkField w).toNat = w.toNat % 256 := by
  simp [kkField, BitVec.extractLsb'_toNat]

theorem nnnField_toNat (w : Word) : (nnnField w).toNat = w.toNat % 4096 := by
  simp [nnnField, BitVec.extractLsb'_toNat]

/-- Concatenation as a number: the upper part times the width of the lower, plus the lower. -/
theorem append_toNat {m n : Nat} (a : BitVec m) (b : BitVec n) : (a ++ b).toNat = a.toNat * 2 ^ n + b.toNat := by
  rw [BitVec.toNat_append, ← Nat.shiftLeft_add_eq_or_of_lt b.isLt, Nat.shiftLeft_eq]

theorem assemble_toNat (hi lo : Byte) : (assemble hi lo).toNat = hi.toNat * 256 + lo.toNat := append_toNat hi lo

theorem fmtNNN_toNat (op : Nibble) (nnn : Addr12) : (fmtNNN op nnn).toNat = op.toNat * 4096 + nnn.toNat :=
  append_toNat op nnn

theorem fmtXKK_toNat (op x : Nibble) (kk : Byte) :
    (fmtXKK op x kk).toNat = op.toNat * 4096 + x.toNat * 256 + kk.toNat := by
  show ((op ++ x : BitVec 8) ++ kk : BitVec 16).toNat = _
  rw [append_toNat (op ++ x : BitVec 8) kk, append_toNat op x]
  ring

theorem fmtXYN_toNat (op x y n : Nibble) :
    (fmtXYN op x y n).toNat = op.toNat * 4096 + x.toNat * 256 + y.toNat * 16 + n.toNat := by
  show ((op ++ x : BitVec 8) ++ (y ++ n : BitVec 8) : BitVec 16).toNat = _
  rw [append_toNat (op ++ x : BitVec 8) (y ++ n : BitVec 8), append_toNat op x, append_toNat y n]
  ring

@[simp] theorem opField_fmtNNN (op : Nibble) (nnn : Addr12) : opField (fmtNNN op nnn) = op := by
  apply BitVec.eq_of_toNat_eq
  rw [opField_toNat, fmtNNN_toNat]
  have := op.isLt; have := nnn.isLt; omega

@[simp] theorem nnnField_fmtNNN (op : Nibble) (nnn : Addr12) : nnnField (fmtNNN op nnn) = nnn := by
  apply BitVec.eq_of_toNat_eq
  rw [nnnField_toNat, fmtNNN_toNat]
  have := op.isLt; have := nnn.isLt; omega

@[simp] theorem opField_fmtXKK (op x : Nibble) (kk : Byte) : opField (fmtXKK op x kk) = op := by
  apply BitVec.eq_of_toNat_eq
  rw [opField_toNat, fmtXKK_toNat]
  have := op.isLt; have := x.isLt; have := kk.isLt; omega

@[simp] theorem xField_fmtXKK (op x : Nibble) (kk : Byte) : xField (fmtXKK op x kk) = x := by
  apply BitVec.eq_of_toNat_eq
  rw [xField_toNat, fmtXKK_toNat]
  have := op.isLt; have := x.isLt; have := kk.isLt; omega

@[simp] theorem kkField_fmtXKK (op x : Nibble) (kk : Byte) : kkField (fmtXKK op x kk) = kk := by
  apply BitVec.eq_of_toNat_eq
  rw [kkField_toNat, fmtXKK_toNat]
  have := op.isLt; have := x.isLt; have := kk.isLt; omega

@[simp] theorem opField_fmtXYN (op x y n : Nibble) : opField (fmtXYN op x y n) = op := by
  apply BitVec.eq_of_toNat_eq
  rw [opField_toNat, fmtXYN_toNat]
  have := op.isLt; have := x.isLt; have := y.isLt; have := n.isLt; omega

@[simp] theorem xField_fmtXYN (op x y n : Nibble) : xField (fmtXYN op x y n) = x := by
  apply BitVec.eq_of_toNat_eq
  rw [xField_toNat, fmtXYN_toNat]
  have := op.isLt; have := x.isLt; have := y.isLt; have := n.isLt; omega

@[simp] theorem yField_fmtXYN (op x y n : Nibble) : yField (fmtXYN op x y n) = y := by
  apply BitVec.eq_of_toNat_eq
  rw [yField_toNat, fmtXYN_toNat]
  have := op.isLt; have := x.isLt; have := y.isLt; have := n.isLt; omega

@[simp] theorem nField_fmtXYN (op x y n : Nibble) : nField (fmtXYN op x y n) = n := by
  apply BitVec.eq_of_toNat_eq
  rw [nField_toNat, fmtXYN_toNat]
  have := op.isLt; have := x.isLt; have := y.isLt; have := n.isLt; omega

/-- Every word is the format XYN of its own four nibbles. -/
theorem fmtXYN_fields (w : Word) : fmtXYN (opField w) (xField w) (yField w) (nField w) = w := by
  apply BitVec.eq_of_toNat_eq
  rw [fmtXYN_toNat, opField_toNat, xField_toNat, yField_toNat, nField_toNat]
  have := w.isLt; omega

/-- Every word is the format XKK of its own fields. -/
theorem fmtXKK_fields (w : Word) : fmtXKK (opField w) (xField w) (kkField w) = w := by
  apply BitVec.eq_of_toNat_eq
  rw [fmtXKK_toNat, opField_toNat, xField_toNat, kkField_toNat]
  have := w.isLt; omega

/-- Every word is the format NNN of its own fields. -/
theorem fmtNNN_fields (w : Word) : fmtNNN (opField w) (nnnField w) = w := by
  apply BitVec.eq_of_toNat_eq
  rw [fmtNNN_toNat, opField_toNat, nnnField_toNat]
  have := w.isLt; omega

/-- Masking a word masks its fields (R58): format NNN. -/
theorem fmtNNN_and (op op' : Nibble) (nnn nnn' : Addr12) :
    fmtNNN op nnn &&& fmtNNN op' nnn' = fmtNNN (op &&& op') (nnn &&& nnn') := BitVec.and_append

/-- Masking a word masks its fields (R58): format XKK. -/
theorem fmtXKK_and (op op' x x' : Nibble) (kk kk' : Byte) :
    fmtXKK op x kk &&& fmtXKK op' x' kk' = fmtXKK (op &&& op') (x &&& x') (kk &&& kk') := by
  simp only [fmtXKK, ← BitVec.and_append (x₁ := op)]
  exact BitVec.and_append (x₁ := (op ++ x : BitVec 8))

/-- Masking a word masks its fields (R58): formats XYS and XYN. -/
theorem fmtXYN_and (op op' x x' y y' n n' : Nibble) :
    fmtXYN op x y n &&& fmtXYN op' x' y' n' = fmtXYN (op &&& op') (x &&& x') (y &&& y') (n &&& n') := by
  simp only [fmtXYN, ← BitVec.and_append (x₁ := op), ← BitVec.and_append (x₁ := y)]
  exact BitVec.and_append (x₁ := (op ++ x : BitVec 8))

/-- The bytes of a word, high byte first, assemble to the word (R40). -/
theorem assemble_wordBytes (w : Word) : assemble (w.extractLsb' 8 8) (w.extractLsb' 0 8) = w := by
  apply BitVec.eq_of_toNat_eq
  rw [assemble_toNat]
  simp only [BitVec.extractLsb'_toNat, Nat.shiftRight_eq_div_pow]
  have := w.isLt; omega

end Sys2Proof
end

