-- ==== Sys2Proof/Laws/Decode.lean ====
section
/-! SUPPORT. The decoder family by family (R57), so that no proof unfolds it: what `decode` is for each value of `op`, and that
the sixteen values are all there are. -/

namespace Sys2Proof

/-- A nibble is one of its sixteen values. -/
theorem nibble_cases (n : Nibble) :
    n = 0x0 ∨ n = 0x1 ∨ n = 0x2 ∨ n = 0x3 ∨ n = 0x4 ∨ n = 0x5 ∨ n = 0x6 ∨ n = 0x7 ∨
    n = 0x8 ∨ n = 0x9 ∨ n = 0xA ∨ n = 0xB ∨ n = 0xC ∨ n = 0xD ∨ n = 0xE ∨ n = 0xF := by
  revert n; decide

theorem decode_op0 {w : Word} (h : opField w = 0x0) : decode w = decodeFamily0 w := by
  simp [decode, h]

theorem decode_op1 {w : Word} (h : opField w = 0x1) : decode w = .instr (.jpAddr (nnnField w)) := by
  simp [decode, h]

theorem decode_op2 {w : Word} (h : opField w = 0x2) : decode w = .instr (.callAddr (nnnField w)) := by
  simp [decode, h]

theorem decode_op3 {w : Word} (h : opField w = 0x3) : decode w = .instr (.seVxKk (xField w) (kkField w)) := by
  simp [decode, h]

theorem decode_op4 {w : Word} (h : opField w = 0x4) : decode w = .instr (.sneVxKk (xField w) (kkField w)) := by
  simp [decode, h]

theorem decode_op5 {w : Word} (h : opField w = 0x5) : decode w = decodeFamily5 w := by
  simp [decode, h]

theorem decode_op6 {w : Word} (h : opField w = 0x6) : decode w = .instr (.ldVxKk (xField w) (kkField w)) := by
  simp [decode, h]

theorem decode_op7 {w : Word} (h : opField w = 0x7) : decode w = .instr (.addVxKk (xField w) (kkField w)) := by
  simp [decode, h]

theorem decode_op8 {w : Word} (h : opField w = 0x8) : decode w = decodeFamily8 w := by
  simp [decode, h]

theorem decode_op9 {w : Word} (h : opField w = 0x9) : decode w = decodeFamily9 w := by
  simp [decode, h]

theorem decode_opA {w : Word} (h : opField w = 0xA) : decode w = .instr (.ldIAddr (nnnField w)) := by
  simp [decode, h]

theorem decode_opB {w : Word} (h : opField w = 0xB) : decode w = .instr (.jpV0Addr (nnnField w)) := by
  simp [decode, h]

theorem decode_opC {w : Word} (h : opField w = 0xC) : decode w = .instr (.rndVxKk (xField w) (kkField w)) := by
  simp [decode, h]

theorem decode_opD {w : Word} (h : opField w = 0xD) : decode w = .instr (.drwVxVyN (xField w) (yField w) (nField w)) := by
  simp [decode, h]

theorem decode_opE {w : Word} (h : opField w = 0xE) : decode w = decodeFamilyE w := by
  simp [decode, h]

theorem decode_opF {w : Word} (h : opField w = 0xF) : decode w = decodeFamilyF w := by
  simp [decode, h]

/-- An invalid verdict carries the word it was asked about (R60). -/
theorem decode_invalid_word {w w' : Word} (h : decode w = .invalid w') : w' = w := by
  rcases nibble_cases (opField w) with e | e | e | e | e | e | e | e | e | e | e | e | e | e | e | e
  · rw [decode_op0 e, decodeFamily0] at h; repeat' split at h
    all_goals cases h
    rfl
  · rw [decode_op1 e] at h; cases h
  · rw [decode_op2 e] at h; cases h
  · rw [decode_op3 e] at h; cases h
  · rw [decode_op4 e] at h; cases h
  · rw [decode_op5 e, decodeFamily5] at h; repeat' split at h
    all_goals cases h
    rfl
  · rw [decode_op6 e] at h; cases h
  · rw [decode_op7 e] at h; cases h
  · rw [decode_op8 e, decodeFamily8] at h; repeat' split at h
    all_goals cases h
    rfl
  · rw [decode_op9 e, decodeFamily9] at h; repeat' split at h
    all_goals cases h
    rfl
  · rw [decode_opA e] at h; cases h
  · rw [decode_opB e] at h; cases h
  · rw [decode_opC e] at h; cases h
  · rw [decode_opD e] at h; cases h
  · rw [decode_opE e, decodeFamilyE] at h; repeat' split at h
    all_goals cases h
    rfl
  · rw [decode_opF e, decodeFamilyF] at h; repeat' split at h
    all_goals cases h
    rfl

end Sys2Proof
end

