-- ==== Sys2Proof/Laws/Framebuffer.lean ====
section
/-! SUPPORT. The framebuffer operations: one pixel after a flip, the canonical form, and what drawing a list of pixels does. -/

namespace Sys2Proof.Machine

theorem mem_lightPixel (fb : Framebuffer) (p q : Pixel) : q ∈ lightPixel fb p ↔ q = p ∨ q ∈ fb := by
  induction fb with
  | nil => simp [lightPixel]
  | cons r fb ih =>
    simp only [lightPixel]
    split
    · simp
    · split
      · subst_vars; simp
      · simp only [List.mem_cons, ih]; tauto

theorem mem_darkenPixel (fb : Framebuffer) (p q : Pixel) : q ∈ darkenPixel fb p ↔ q ∈ fb ∧ q ≠ p := by
  simp [darkenPixel]

/-- Flipping a pixel inverts that pixel and no other (R96). -/
theorem lit_flipPixel (fb : Framebuffer) (p q : Pixel) : lit (flipPixel fb p) q = if q = p then !lit fb p else lit fb q := by
  by_cases hp : p ∈ fb
  · by_cases h : q = p
    · subst h; simp [flipPixel, lit, hp, mem_darkenPixel]
    · simp [flipPixel, lit, hp, mem_darkenPixel, h]
  · by_cases h : q = p
    · subst h; simp [flipPixel, lit, hp, mem_lightPixel]
    · simp [flipPixel, lit, hp, mem_lightPixel, h]

theorem pixelBefore_trans {p q r : Pixel} (h : pixelBefore p q) (h' : pixelBefore q r) : pixelBefore p r := by
  unfold pixelBefore at *; omega

theorem pixelBefore_of_not {p q : Pixel} (h : ¬ pixelBefore p q) (hne : p ≠ q) : pixelBefore q p := by
  unfold pixelBefore at *
  have : ¬ (p.1 = q.1 ∧ p.2 = q.2) := fun e => hne (Prod.ext e.1 e.2)
  omega

theorem lightPixel_rising {fb : Framebuffer} (h : fb.Pairwise pixelBefore) (p : Pixel) :
    (lightPixel fb p).Pairwise pixelBefore := by
  induction fb with
  | nil => simp [lightPixel]
  | cons q fb ih =>
    obtain ⟨hq, hfb⟩ := List.pairwise_cons.1 h
    simp only [lightPixel]
    split
    · rename_i hlt
      refine List.pairwise_cons.2 ⟨fun r hr => ?_, h⟩
      rcases List.mem_cons.1 hr with e | e
      · exact e ▸ hlt
      · exact pixelBefore_trans hlt (hq r e)
    · split
      · exact h
      · rename_i hnlt hne
        refine List.pairwise_cons.2 ⟨fun r hr => ?_, ih hfb⟩
        rcases (mem_lightPixel fb p r).1 hr with e | e
        · exact e ▸ pixelBefore_of_not hnlt hne
        · exact hq r e

/-- Flipping a pixel inside the framebuffer keeps the canonical form. -/
theorem flipPixel_wf {cfg : Config} {fb : Framebuffer} (h : Framebuffer.wf cfg fb) {p : Pixel} (hp : p.1 < cfg.fbW ∧ p.2 < cfg.fbH) :
    Framebuffer.wf cfg (flipPixel fb p) := by
  unfold flipPixel
  split
  · exact ⟨h.1.filter _, fun q hq => h.2 q ((mem_darkenPixel fb p q).1 hq).1⟩
  · refine ⟨lightPixel_rising h.1 p, fun q hq => ?_⟩
    rcases (mem_lightPixel fb p q).1 hq with e | e
    · exact e ▸ hp
    · exact h.2 q e

theorem drawPixels_wf {cfg : Config} {ps : List Pixel} {fb : Framebuffer} {c : Bool} (h : Framebuffer.wf cfg fb)
    (hp : ∀ p ∈ ps, p.1 < cfg.fbW ∧ p.2 < cfg.fbH) : Framebuffer.wf cfg (drawPixels ps fb c).1 := by
  induction ps generalizing fb c with
  | nil => exact h
  | cons p ps ih =>
    exact ih (flipPixel_wf h (hp p List.mem_cons_self)) fun q hq => hp q (List.mem_cons_of_mem _ hq)

/-- Each pixel is inverted once for each time the drawing visits it. -/
theorem lit_drawPixels (ps : List Pixel) (fb : Framebuffer) (c : Bool) (q : Pixel) :
    lit (drawPixels ps fb c).1 q = (lit fb q ^^ decide (ps.count q % 2 = 1)) := by
  induction ps generalizing fb c with
  | nil => simp [drawPixels]
  | cons p ps ih =>
    rw [drawPixels, ih, lit_flipPixel]
    by_cases h : q = p
    · subst h
      rw [if_pos rfl, List.count_cons_self]
      rcases Nat.mod_two_eq_zero_or_one (ps.count q) with e | e
      · have e' : (ps.count q + 1) % 2 = 1 := by omega
        simp [e, e']
      · have e' : (ps.count q + 1) % 2 = 0 := by omega
        simp [e, e']
    · rw [if_neg h, List.count_cons_of_ne (Ne.symm h)]

/-- Where no pixel is visited twice, the drawing collides exactly when a pixel it visits was on (R96). -/
theorem collision_drawPixels (ps : List Pixel) (fb : Framebuffer) (c : Bool) (hd : ps.Nodup) :
    (drawPixels ps fb c).2 = (c || ps.any (lit fb)) := by
  induction ps generalizing fb c with
  | nil => simp [drawPixels]
  | cons p ps ih =>
    obtain ⟨hp, hd⟩ := List.nodup_cons.1 hd
    rw [drawPixels, ih _ _ hd, List.any_cons, Bool.or_assoc]
    congr 2
    rw [Bool.eq_iff_iff, List.any_eq_true, List.any_eq_true]
    refine exists_congr fun q => and_congr_right fun hq => ?_
    rw [lit_flipPixel, if_neg fun e : q = p => hp (e ▸ hq)]

theorem rowPixels_inside {cfg : Config} (hw : 0 < cfg.fbW) (hh : 0 < cfg.fbH) (x0 y0 : Byte) (r : Nat) (row : Byte) :
    ∀ p ∈ rowPixels cfg x0 y0 r row, p.1 < cfg.fbW ∧ p.2 < cfg.fbH := by
  intro p hp
  obtain ⟨c, -, rfl⟩ := List.mem_map.1 hp
  exact ⟨Nat.mod_lt _ hw, Nat.mod_lt _ hh⟩

/-- Every pixel of a sprite lies inside the framebuffer: both axes wrap (R96). -/
theorem spritePixels_inside {cfg : Config} (hw : 0 < cfg.fbW) (hh : 0 < cfg.fbH) (x0 y0 : Byte) (r : Nat) (rows : List Byte) :
    ∀ p ∈ spritePixels cfg x0 y0 r rows, p.1 < cfg.fbW ∧ p.2 < cfg.fbH := by
  induction rows generalizing r with
  | nil => simp [spritePixels]
  | cons row rows ih =>
    intro p hp
    rcases List.mem_append.1 hp with h | h
    · exact rowPixels_inside hw hh x0 y0 r row p h
    · exact ih (r + 1) p h

/-- The pixels of a sprite are those of its set bits (R96). -/
theorem mem_spritePixels (cfg : Config) (x0 y0 : Byte) (r : Nat) (rows : List Byte) (p : Pixel) :
    p ∈ spritePixels cfg x0 y0 r rows ↔
      ∃ (j : Nat) (h : j < rows.length) (c : Nat), c < 8 ∧ spriteBit cfg.spriteBitOrder rows[j] c = true ∧
        p = spritePixel cfg x0 y0 c (r + j) := by
  induction rows generalizing r with
  | nil => simp [spritePixels]
  | cons row rows ih =>
    simp only [spritePixels, List.mem_append, ih, rowPixels, List.mem_map, List.mem_filter, List.mem_range]
    constructor
    · rintro (⟨c, ⟨hc, hb⟩, rfl⟩ | ⟨j, hj, c, hc, hb, rfl⟩)
      · exact ⟨0, by simp, c, hc, hb, rfl⟩
      · exact ⟨j + 1, by simpa using hj, c, hc, by simpa using hb, by congr 1; omega⟩
    · rintro ⟨j, hj, c, hc, hb, rfl⟩
      cases j with
      | zero => exact .inl ⟨c, ⟨hc, by simpa using hb⟩, rfl⟩
      | succ j => exact .inr ⟨j, by simpa using hj, c, hc, by simpa using hb, by congr 1; omega⟩

theorem mod_inj {m a i j : Nat} (h : (a + i) % m = (a + j) % m) (hi : i < m) (hj : j < m) : i = j := by
  have e : i ≡ j [MOD m] := Nat.ModEq.add_left_cancel' a h
  rwa [Nat.ModEq, Nat.mod_eq_of_lt hi, Nat.mod_eq_of_lt hj] at e

/-- At a size of at least 8 columns and as many rows as the sprite has, no pixel is visited twice in one drawing (R96). -/
theorem spritePixels_nodup {cfg : Config} (hw : 8 ≤ cfg.fbW) (x0 y0 : Byte) (r : Nat) (rows : List Byte)
    (hh : r + rows.length ≤ cfg.fbH) : (spritePixels cfg x0 y0 r rows).Nodup := by
  induction rows generalizing r with
  | nil => simp [spritePixels]
  | cons row rows ih =>
    simp only [List.length_cons] at hh
    refine List.nodup_append.2 ⟨List.Nodup.map_on (fun c hc d hd e => ?_) (List.nodup_range.filter _),
      ih (r + 1) (by omega), fun p hp q hq e => ?_⟩
    · have hc := List.mem_range.1 (List.mem_of_mem_filter hc)
      have hd := List.mem_range.1 (List.mem_of_mem_filter hd)
      exact mod_inj (congrArg Prod.fst e) (by omega) (by omega)
    · obtain ⟨c, -, rfl⟩ := List.mem_map.1 hp
      obtain ⟨j, hj, d, -, -, rfl⟩ := (mem_spritePixels cfg x0 y0 (r + 1) rows q).1 hq
      have := mod_inj (congrArg Prod.snd e) (by omega) (by omega)
      omega

end Sys2Proof.Machine
end

