-- ==== Sys2Proof/Laws/State.lean ====
section
/-! SUPPORT. What each operation leaves unchanged, field by field; a repeated operation (ticks, loadRegs, writeBytes) by
induction on its repetitions. -/

namespace Sys2Proof.Machine

/-! ### setV -/

@[simp] theorem setV_i (x : Nibble) (b : Byte) (s : State) : (setV x b s).i = s.i := rfl

@[simp] theorem setV_pc (x : Nibble) (b : Byte) (s : State) : (setV x b s).pc = s.pc := rfl

@[simp] theorem setV_sp (x : Nibble) (b : Byte) (s : State) : (setV x b s).sp = s.sp := rfl

@[simp] theorem setV_stack (x : Nibble) (b : Byte) (s : State) : (setV x b s).stack = s.stack := rfl

@[simp] theorem setV_dt (x : Nibble) (b : Byte) (s : State) : (setV x b s).dt = s.dt := rfl

@[simp] theorem setV_st (x : Nibble) (b : Byte) (s : State) : (setV x b s).st = s.st := rfl

@[simp] theorem setV_run (x : Nibble) (b : Byte) (s : State) : (setV x b s).run = s.run := rfl

@[simp] theorem setV_err (x : Nibble) (b : Byte) (s : State) : (setV x b s).err = s.err := rfl

@[simp] theorem setV_keyPrev (x : Nibble) (b : Byte) (s : State) : (setV x b s).keyPrev = s.keyPrev := rfl

@[simp] theorem setV_fb (x : Nibble) (b : Byte) (s : State) : (setV x b s).fb = s.fb := rfl

@[simp] theorem setV_mem (x : Nibble) (b : Byte) (s : State) : (setV x b s).mem = s.mem := rfl

@[simp] theorem setV_cfg (x : Nibble) (b : Byte) (s : State) : (setV x b s).cfg = s.cfg := rfl

@[simp] theorem setV_request (x : Nibble) (b : Byte) (s : State) : (setV x b s).request = s.request := rfl

@[simp] theorem setV_inputs (x : Nibble) (b : Byte) (s : State) : (setV x b s).inputs = s.inputs := rfl

@[simp] theorem setV_drawn (x : Nibble) (b : Byte) (s : State) : (setV x b s).drawn = s.drawn := rfl

/-! ### setVF -/

@[simp] theorem setVF_i (b : Byte) (s : State) : (setVF b s).i = s.i := rfl

@[simp] theorem setVF_pc (b : Byte) (s : State) : (setVF b s).pc = s.pc := rfl

@[simp] theorem setVF_sp (b : Byte) (s : State) : (setVF b s).sp = s.sp := rfl

@[simp] theorem setVF_stack (b : Byte) (s : State) : (setVF b s).stack = s.stack := rfl

@[simp] theorem setVF_dt (b : Byte) (s : State) : (setVF b s).dt = s.dt := rfl

@[simp] theorem setVF_st (b : Byte) (s : State) : (setVF b s).st = s.st := rfl

@[simp] theorem setVF_run (b : Byte) (s : State) : (setVF b s).run = s.run := rfl

@[simp] theorem setVF_err (b : Byte) (s : State) : (setVF b s).err = s.err := rfl

@[simp] theorem setVF_keyPrev (b : Byte) (s : State) : (setVF b s).keyPrev = s.keyPrev := rfl

@[simp] theorem setVF_fb (b : Byte) (s : State) : (setVF b s).fb = s.fb := rfl

@[simp] theorem setVF_mem (b : Byte) (s : State) : (setVF b s).mem = s.mem := rfl

@[simp] theorem setVF_cfg (b : Byte) (s : State) : (setVF b s).cfg = s.cfg := rfl

@[simp] theorem setVF_request (b : Byte) (s : State) : (setVF b s).request = s.request := rfl

@[simp] theorem setVF_inputs (b : Byte) (s : State) : (setVF b s).inputs = s.inputs := rfl

@[simp] theorem setVF_drawn (b : Byte) (s : State) : (setVF b s).drawn = s.drawn := rfl

/-! ### advance -/

@[simp] theorem advance_v (s : State) : (advance s).v = s.v := rfl

@[simp] theorem advance_i (s : State) : (advance s).i = s.i := rfl

@[simp] theorem advance_sp (s : State) : (advance s).sp = s.sp := rfl

@[simp] theorem advance_stack (s : State) : (advance s).stack = s.stack := rfl

@[simp] theorem advance_dt (s : State) : (advance s).dt = s.dt := rfl

@[simp] theorem advance_st (s : State) : (advance s).st = s.st := rfl

@[simp] theorem advance_run (s : State) : (advance s).run = s.run := rfl

@[simp] theorem advance_err (s : State) : (advance s).err = s.err := rfl

@[simp] theorem advance_keyPrev (s : State) : (advance s).keyPrev = s.keyPrev := rfl

@[simp] theorem advance_fb (s : State) : (advance s).fb = s.fb := rfl

@[simp] theorem advance_mem (s : State) : (advance s).mem = s.mem := rfl

@[simp] theorem advance_cfg (s : State) : (advance s).cfg = s.cfg := rfl

@[simp] theorem advance_request (s : State) : (advance s).request = s.request := rfl

@[simp] theorem advance_inputs (s : State) : (advance s).inputs = s.inputs := rfl

@[simp] theorem advance_drawn (s : State) : (advance s).drawn = s.drawn := rfl

/-! ### skipIf -/

@[simp] theorem skipIf_v (c : Bool) (s : State) : (skipIf c s).v = s.v := rfl

@[simp] theorem skipIf_i (c : Bool) (s : State) : (skipIf c s).i = s.i := rfl

@[simp] theorem skipIf_sp (c : Bool) (s : State) : (skipIf c s).sp = s.sp := rfl

@[simp] theorem skipIf_stack (c : Bool) (s : State) : (skipIf c s).stack = s.stack := rfl

@[simp] theorem skipIf_dt (c : Bool) (s : State) : (skipIf c s).dt = s.dt := rfl

@[simp] theorem skipIf_st (c : Bool) (s : State) : (skipIf c s).st = s.st := rfl

@[simp] theorem skipIf_run (c : Bool) (s : State) : (skipIf c s).run = s.run := rfl

@[simp] theorem skipIf_err (c : Bool) (s : State) : (skipIf c s).err = s.err := rfl

@[simp] theorem skipIf_keyPrev (c : Bool) (s : State) : (skipIf c s).keyPrev = s.keyPrev := rfl

@[simp] theorem skipIf_fb (c : Bool) (s : State) : (skipIf c s).fb = s.fb := rfl

@[simp] theorem skipIf_mem (c : Bool) (s : State) : (skipIf c s).mem = s.mem := rfl

@[simp] theorem skipIf_cfg (c : Bool) (s : State) : (skipIf c s).cfg = s.cfg := rfl

@[simp] theorem skipIf_request (c : Bool) (s : State) : (skipIf c s).request = s.request := rfl

@[simp] theorem skipIf_inputs (c : Bool) (s : State) : (skipIf c s).inputs = s.inputs := rfl

@[simp] theorem skipIf_drawn (c : Bool) (s : State) : (skipIf c s).drawn = s.drawn := rfl

/-! ### jump -/

@[simp] theorem jump_v (target : Word) (s : State) : (jump target s).v = s.v := rfl

@[simp] theorem jump_i (target : Word) (s : State) : (jump target s).i = s.i := rfl

@[simp] theorem jump_sp (target : Word) (s : State) : (jump target s).sp = s.sp := rfl

@[simp] theorem jump_stack (target : Word) (s : State) : (jump target s).stack = s.stack := rfl

@[simp] theorem jump_dt (target : Word) (s : State) : (jump target s).dt = s.dt := rfl

@[simp] theorem jump_st (target : Word) (s : State) : (jump target s).st = s.st := rfl

@[simp] theorem jump_run (target : Word) (s : State) : (jump target s).run = s.run := rfl

@[simp] theorem jump_err (target : Word) (s : State) : (jump target s).err = s.err := rfl

@[simp] theorem jump_keyPrev (target : Word) (s : State) : (jump target s).keyPrev = s.keyPrev := rfl

@[simp] theorem jump_fb (target : Word) (s : State) : (jump target s).fb = s.fb := rfl

@[simp] theorem jump_mem (target : Word) (s : State) : (jump target s).mem = s.mem := rfl

@[simp] theorem jump_cfg (target : Word) (s : State) : (jump target s).cfg = s.cfg := rfl

@[simp] theorem jump_request (target : Word) (s : State) : (jump target s).request = s.request := rfl

@[simp] theorem jump_inputs (target : Word) (s : State) : (jump target s).inputs = s.inputs := rfl

@[simp] theorem jump_drawn (target : Word) (s : State) : (jump target s).drawn = s.drawn := rfl

/-! ### writeByte -/

@[simp] theorem writeByte_v (a : Nat) (b : Byte) (s : State) : (writeByte a b s).v = s.v := rfl

@[simp] theorem writeByte_i (a : Nat) (b : Byte) (s : State) : (writeByte a b s).i = s.i := rfl

@[simp] theorem writeByte_pc (a : Nat) (b : Byte) (s : State) : (writeByte a b s).pc = s.pc := rfl

@[simp] theorem writeByte_sp (a : Nat) (b : Byte) (s : State) : (writeByte a b s).sp = s.sp := rfl

@[simp] theorem writeByte_stack (a : Nat) (b : Byte) (s : State) : (writeByte a b s).stack = s.stack := rfl

@[simp] theorem writeByte_dt (a : Nat) (b : Byte) (s : State) : (writeByte a b s).dt = s.dt := rfl

@[simp] theorem writeByte_st (a : Nat) (b : Byte) (s : State) : (writeByte a b s).st = s.st := rfl

@[simp] theorem writeByte_run (a : Nat) (b : Byte) (s : State) : (writeByte a b s).run = s.run := rfl

@[simp] theorem writeByte_err (a : Nat) (b : Byte) (s : State) : (writeByte a b s).err = s.err := rfl

@[simp] theorem writeByte_keyPrev (a : Nat) (b : Byte) (s : State) : (writeByte a b s).keyPrev = s.keyPrev := rfl

@[simp] theorem writeByte_fb (a : Nat) (b : Byte) (s : State) : (writeByte a b s).fb = s.fb := rfl

@[simp] theorem writeByte_cfg (a : Nat) (b : Byte) (s : State) : (writeByte a b s).cfg = s.cfg := rfl

@[simp] theorem writeByte_request (a : Nat) (b : Byte) (s : State) : (writeByte a b s).request = s.request := rfl

@[simp] theorem writeByte_inputs (a : Nat) (b : Byte) (s : State) : (writeByte a b s).inputs = s.inputs := rfl

@[simp] theorem writeByte_drawn (a : Nat) (b : Byte) (s : State) : (writeByte a b s).drawn = s.drawn := rfl

/-! ### raise -/

@[simp] theorem raise_v (kind : ErrorKind) (w : Word) (s : State) : (raise kind w s).v = s.v := rfl

@[simp] theorem raise_i (kind : ErrorKind) (w : Word) (s : State) : (raise kind w s).i = s.i := rfl

@[simp] theorem raise_pc (kind : ErrorKind) (w : Word) (s : State) : (raise kind w s).pc = s.pc := rfl

@[simp] theorem raise_sp (kind : ErrorKind) (w : Word) (s : State) : (raise kind w s).sp = s.sp := rfl

@[simp] theorem raise_stack (kind : ErrorKind) (w : Word) (s : State) : (raise kind w s).stack = s.stack := rfl

@[simp] theorem raise_dt (kind : ErrorKind) (w : Word) (s : State) : (raise kind w s).dt = s.dt := rfl

@[simp] theorem raise_st (kind : ErrorKind) (w : Word) (s : State) : (raise kind w s).st = s.st := rfl

@[simp] theorem raise_keyPrev (kind : ErrorKind) (w : Word) (s : State) : (raise kind w s).keyPrev = s.keyPrev := rfl

@[simp] theorem raise_fb (kind : ErrorKind) (w : Word) (s : State) : (raise kind w s).fb = s.fb := rfl

@[simp] theorem raise_mem (kind : ErrorKind) (w : Word) (s : State) : (raise kind w s).mem = s.mem := rfl

@[simp] theorem raise_cfg (kind : ErrorKind) (w : Word) (s : State) : (raise kind w s).cfg = s.cfg := rfl

@[simp] theorem raise_inputs (kind : ErrorKind) (w : Word) (s : State) : (raise kind w s).inputs = s.inputs := rfl

@[simp] theorem raise_drawn (kind : ErrorKind) (w : Word) (s : State) : (raise kind w s).drawn = s.drawn := rfl

/-! ### endStep -/

@[simp] theorem endStep_v (s : State) : (endStep s).v = s.v := rfl

@[simp] theorem endStep_i (s : State) : (endStep s).i = s.i := rfl

@[simp] theorem endStep_pc (s : State) : (endStep s).pc = s.pc := rfl

@[simp] theorem endStep_sp (s : State) : (endStep s).sp = s.sp := rfl

@[simp] theorem endStep_stack (s : State) : (endStep s).stack = s.stack := rfl

@[simp] theorem endStep_dt (s : State) : (endStep s).dt = s.dt := rfl

@[simp] theorem endStep_st (s : State) : (endStep s).st = s.st := rfl

@[simp] theorem endStep_run (s : State) : (endStep s).run = s.run := rfl

@[simp] theorem endStep_err (s : State) : (endStep s).err = s.err := rfl

@[simp] theorem endStep_keyPrev (s : State) : (endStep s).keyPrev = s.keyPrev := rfl

@[simp] theorem endStep_fb (s : State) : (endStep s).fb = s.fb := rfl

@[simp] theorem endStep_mem (s : State) : (endStep s).mem = s.mem := rfl

@[simp] theorem endStep_cfg (s : State) : (endStep s).cfg = s.cfg := rfl

@[simp] theorem endStep_request (s : State) : (endStep s).request = s.request := rfl

/-! ### setResultThenFlag -/

@[simp] theorem setResultThenFlag_i (x : Nibble) (result flag : Byte) (s : State) : (setResultThenFlag x result flag s).i = s.i := rfl

@[simp] theorem setResultThenFlag_pc (x : Nibble) (result flag : Byte) (s : State) : (setResultThenFlag x result flag s).pc = s.pc := rfl

@[simp] theorem setResultThenFlag_sp (x : Nibble) (result flag : Byte) (s : State) : (setResultThenFlag x result flag s).sp = s.sp := rfl

@[simp] theorem setResultThenFlag_stack (x : Nibble) (result flag : Byte) (s : State) : (setResultThenFlag x result flag s).stack = s.stack := rfl

@[simp] theorem setResultThenFlag_dt (x : Nibble) (result flag : Byte) (s : State) : (setResultThenFlag x result flag s).dt = s.dt := rfl

@[simp] theorem setResultThenFlag_st (x : Nibble) (result flag : Byte) (s : State) : (setResultThenFlag x result flag s).st = s.st := rfl

@[simp] theorem setResultThenFlag_run (x : Nibble) (result flag : Byte) (s : State) : (setResultThenFlag x result flag s).run = s.run := rfl

@[simp] theorem setResultThenFlag_err (x : Nibble) (result flag : Byte) (s : State) : (setResultThenFlag x result flag s).err = s.err := rfl

@[simp] theorem setResultThenFlag_keyPrev (x : Nibble) (result flag : Byte) (s : State) : (setResultThenFlag x result flag s).keyPrev = s.keyPrev := rfl

@[simp] theorem setResultThenFlag_fb (x : Nibble) (result flag : Byte) (s : State) : (setResultThenFlag x result flag s).fb = s.fb := rfl

@[simp] theorem setResultThenFlag_mem (x : Nibble) (result flag : Byte) (s : State) : (setResultThenFlag x result flag s).mem = s.mem := rfl

@[simp] theorem setResultThenFlag_cfg (x : Nibble) (result flag : Byte) (s : State) : (setResultThenFlag x result flag s).cfg = s.cfg := rfl

@[simp] theorem setResultThenFlag_request (x : Nibble) (result flag : Byte) (s : State) : (setResultThenFlag x result flag s).request = s.request := rfl

@[simp] theorem setResultThenFlag_inputs (x : Nibble) (result flag : Byte) (s : State) : (setResultThenFlag x result flag s).inputs = s.inputs := rfl

@[simp] theorem setResultThenFlag_drawn (x : Nibble) (result flag : Byte) (s : State) : (setResultThenFlag x result flag s).drawn = s.drawn := rfl

/-! ### awaitKey -/

@[simp] theorem awaitKey_v (x : Nibble) (s : State) : (awaitKey x s).v = s.v := rfl

@[simp] theorem awaitKey_i (x : Nibble) (s : State) : (awaitKey x s).i = s.i := rfl

@[simp] theorem awaitKey_pc (x : Nibble) (s : State) : (awaitKey x s).pc = s.pc := rfl

@[simp] theorem awaitKey_sp (x : Nibble) (s : State) : (awaitKey x s).sp = s.sp := rfl

@[simp] theorem awaitKey_stack (x : Nibble) (s : State) : (awaitKey x s).stack = s.stack := rfl

@[simp] theorem awaitKey_dt (x : Nibble) (s : State) : (awaitKey x s).dt = s.dt := rfl

@[simp] theorem awaitKey_st (x : Nibble) (s : State) : (awaitKey x s).st = s.st := rfl

@[simp] theorem awaitKey_err (x : Nibble) (s : State) : (awaitKey x s).err = s.err := rfl

@[simp] theorem awaitKey_keyPrev (x : Nibble) (s : State) : (awaitKey x s).keyPrev = s.keyPrev := rfl

@[simp] theorem awaitKey_fb (x : Nibble) (s : State) : (awaitKey x s).fb = s.fb := rfl

@[simp] theorem awaitKey_mem (x : Nibble) (s : State) : (awaitKey x s).mem = s.mem := rfl

@[simp] theorem awaitKey_cfg (x : Nibble) (s : State) : (awaitKey x s).cfg = s.cfg := rfl

@[simp] theorem awaitKey_inputs (x : Nibble) (s : State) : (awaitKey x s).inputs = s.inputs := rfl

@[simp] theorem awaitKey_drawn (x : Nibble) (s : State) : (awaitKey x s).drawn = s.drawn := rfl

/-! ### resolveWait -/

@[simp] theorem resolveWait_i (x key : Nibble) (s : State) : (resolveWait x key s).i = s.i := rfl

@[simp] theorem resolveWait_sp (x key : Nibble) (s : State) : (resolveWait x key s).sp = s.sp := rfl

@[simp] theorem resolveWait_stack (x key : Nibble) (s : State) : (resolveWait x key s).stack = s.stack := rfl

@[simp] theorem resolveWait_dt (x key : Nibble) (s : State) : (resolveWait x key s).dt = s.dt := rfl

@[simp] theorem resolveWait_st (x key : Nibble) (s : State) : (resolveWait x key s).st = s.st := rfl

@[simp] theorem resolveWait_err (x key : Nibble) (s : State) : (resolveWait x key s).err = s.err := rfl

@[simp] theorem resolveWait_keyPrev (x key : Nibble) (s : State) : (resolveWait x key s).keyPrev = s.keyPrev := rfl

@[simp] theorem resolveWait_fb (x key : Nibble) (s : State) : (resolveWait x key s).fb = s.fb := rfl

@[simp] theorem resolveWait_mem (x key : Nibble) (s : State) : (resolveWait x key s).mem = s.mem := rfl

@[simp] theorem resolveWait_cfg (x key : Nibble) (s : State) : (resolveWait x key s).cfg = s.cfg := rfl

@[simp] theorem resolveWait_inputs (x key : Nibble) (s : State) : (resolveWait x key s).inputs = s.inputs := rfl

@[simp] theorem resolveWait_drawn (x key : Nibble) (s : State) : (resolveWait x key s).drawn = s.drawn := rfl

/-! ### tick -/

@[simp] theorem tick_v (s : State) : (tick s).v = s.v := by unfold tick; split <;> rfl

@[simp] theorem tick_i (s : State) : (tick s).i = s.i := by unfold tick; split <;> rfl

@[simp] theorem tick_pc (s : State) : (tick s).pc = s.pc := by unfold tick; split <;> rfl

@[simp] theorem tick_sp (s : State) : (tick s).sp = s.sp := by unfold tick; split <;> rfl

@[simp] theorem tick_stack (s : State) : (tick s).stack = s.stack := by unfold tick; split <;> rfl

@[simp] theorem tick_run (s : State) : (tick s).run = s.run := by unfold tick; split <;> rfl

@[simp] theorem tick_err (s : State) : (tick s).err = s.err := by unfold tick; split <;> rfl

@[simp] theorem tick_keyPrev (s : State) : (tick s).keyPrev = s.keyPrev := by unfold tick; split <;> rfl

@[simp] theorem tick_fb (s : State) : (tick s).fb = s.fb := by unfold tick; split <;> rfl

@[simp] theorem tick_mem (s : State) : (tick s).mem = s.mem := by unfold tick; split <;> rfl

@[simp] theorem tick_cfg (s : State) : (tick s).cfg = s.cfg := by unfold tick; split <;> rfl

@[simp] theorem tick_request (s : State) : (tick s).request = s.request := by unfold tick; split <;> rfl

@[simp] theorem tick_inputs (s : State) : (tick s).inputs = s.inputs := by unfold tick; split <;> rfl

@[simp] theorem tick_drawn (s : State) : (tick s).drawn = s.drawn := by unfold tick; split <;> rfl

/-! ### samplePrev -/

@[simp] theorem samplePrev_v (s : State) : (samplePrev s).v = s.v := by unfold samplePrev; split <;> rfl

@[simp] theorem samplePrev_i (s : State) : (samplePrev s).i = s.i := by unfold samplePrev; split <;> rfl

@[simp] theorem samplePrev_pc (s : State) : (samplePrev s).pc = s.pc := by unfold samplePrev; split <;> rfl

@[simp] theorem samplePrev_sp (s : State) : (samplePrev s).sp = s.sp := by unfold samplePrev; split <;> rfl

@[simp] theorem samplePrev_stack (s : State) : (samplePrev s).stack = s.stack := by unfold samplePrev; split <;> rfl

@[simp] theorem samplePrev_dt (s : State) : (samplePrev s).dt = s.dt := by unfold samplePrev; split <;> rfl

@[simp] theorem samplePrev_st (s : State) : (samplePrev s).st = s.st := by unfold samplePrev; split <;> rfl

@[simp] theorem samplePrev_run (s : State) : (samplePrev s).run = s.run := by unfold samplePrev; split <;> rfl

@[simp] theorem samplePrev_err (s : State) : (samplePrev s).err = s.err := by unfold samplePrev; split <;> rfl

@[simp] theorem samplePrev_fb (s : State) : (samplePrev s).fb = s.fb := by unfold samplePrev; split <;> rfl

@[simp] theorem samplePrev_mem (s : State) : (samplePrev s).mem = s.mem := by unfold samplePrev; split <;> rfl

@[simp] theorem samplePrev_cfg (s : State) : (samplePrev s).cfg = s.cfg := by unfold samplePrev; split <;> rfl

@[simp] theorem samplePrev_request (s : State) : (samplePrev s).request = s.request := by unfold samplePrev; split <;> rfl

@[simp] theorem samplePrev_inputs (s : State) : (samplePrev s).inputs = s.inputs := by unfold samplePrev; split <;> rfl

@[simp] theorem samplePrev_drawn (s : State) : (samplePrev s).drawn = s.drawn := by unfold samplePrev; split <;> rfl

/-! ### ticks -/

@[simp] theorem ticks_v (k : Nat) (s : State) : (ticks k s).v = s.v := by
  induction k generalizing s with
  | zero => rfl
  | succ k ih => rw [ticks, ih, tick_v]

@[simp] theorem ticks_i (k : Nat) (s : State) : (ticks k s).i = s.i := by
  induction k generalizing s with
  | zero => rfl
  | succ k ih => rw [ticks, ih, tick_i]

@[simp] theorem ticks_pc (k : Nat) (s : State) : (ticks k s).pc = s.pc := by
  induction k generalizing s with
  | zero => rfl
  | succ k ih => rw [ticks, ih, tick_pc]

@[simp] theorem ticks_sp (k : Nat) (s : State) : (ticks k s).sp = s.sp := by
  induction k generalizing s with
  | zero => rfl
  | succ k ih => rw [ticks, ih, tick_sp]

@[simp] theorem ticks_stack (k : Nat) (s : State) : (ticks k s).stack = s.stack := by
  induction k generalizing s with
  | zero => rfl
  | succ k ih => rw [ticks, ih, tick_stack]

@[simp] theorem ticks_run (k : Nat) (s : State) : (ticks k s).run = s.run := by
  induction k generalizing s with
  | zero => rfl
  | succ k ih => rw [ticks, ih, tick_run]

@[simp] theorem ticks_err (k : Nat) (s : State) : (ticks k s).err = s.err := by
  induction k generalizing s with
  | zero => rfl
  | succ k ih => rw [ticks, ih, tick_err]

@[simp] theorem ticks_keyPrev (k : Nat) (s : State) : (ticks k s).keyPrev = s.keyPrev := by
  induction k generalizing s with
  | zero => rfl
  | succ k ih => rw [ticks, ih, tick_keyPrev]

@[simp] theorem ticks_fb (k : Nat) (s : State) : (ticks k s).fb = s.fb := by
  induction k generalizing s with
  | zero => rfl
  | succ k ih => rw [ticks, ih, tick_fb]

@[simp] theorem ticks_mem (k : Nat) (s : State) : (ticks k s).mem = s.mem := by
  induction k generalizing s with
  | zero => rfl
  | succ k ih => rw [ticks, ih, tick_mem]

@[simp] theorem ticks_cfg (k : Nat) (s : State) : (ticks k s).cfg = s.cfg := by
  induction k generalizing s with
  | zero => rfl
  | succ k ih => rw [ticks, ih, tick_cfg]

@[simp] theorem ticks_request (k : Nat) (s : State) : (ticks k s).request = s.request := by
  induction k generalizing s with
  | zero => rfl
  | succ k ih => rw [ticks, ih, tick_request]

@[simp] theorem ticks_inputs (k : Nat) (s : State) : (ticks k s).inputs = s.inputs := by
  induction k generalizing s with
  | zero => rfl
  | succ k ih => rw [ticks, ih, tick_inputs]

@[simp] theorem ticks_drawn (k : Nat) (s : State) : (ticks k s).drawn = s.drawn := by
  induction k generalizing s with
  | zero => rfl
  | succ k ih => rw [ticks, ih, tick_drawn]

/-! ### beginStep -/

@[simp] theorem beginStep_v (s : State) : (beginStep s).v = s.v := ticks_v s.inputs.ticks s

@[simp] theorem beginStep_i (s : State) : (beginStep s).i = s.i := ticks_i s.inputs.ticks s

@[simp] theorem beginStep_pc (s : State) : (beginStep s).pc = s.pc := ticks_pc s.inputs.ticks s

@[simp] theorem beginStep_sp (s : State) : (beginStep s).sp = s.sp := ticks_sp s.inputs.ticks s

@[simp] theorem beginStep_stack (s : State) : (beginStep s).stack = s.stack := ticks_stack s.inputs.ticks s

@[simp] theorem beginStep_run (s : State) : (beginStep s).run = s.run := ticks_run s.inputs.ticks s

@[simp] theorem beginStep_err (s : State) : (beginStep s).err = s.err := ticks_err s.inputs.ticks s

@[simp] theorem beginStep_keyPrev (s : State) : (beginStep s).keyPrev = s.keyPrev := ticks_keyPrev s.inputs.ticks s

@[simp] theorem beginStep_fb (s : State) : (beginStep s).fb = s.fb := ticks_fb s.inputs.ticks s

@[simp] theorem beginStep_mem (s : State) : (beginStep s).mem = s.mem := ticks_mem s.inputs.ticks s

@[simp] theorem beginStep_cfg (s : State) : (beginStep s).cfg = s.cfg := ticks_cfg s.inputs.ticks s

@[simp] theorem beginStep_inputs (s : State) : (beginStep s).inputs = s.inputs := ticks_inputs s.inputs.ticks s

@[simp] theorem beginStep_drawn (s : State) : (beginStep s).drawn = s.drawn := ticks_drawn s.inputs.ticks s

/-! ### loadRegs -/

@[simp] theorem loadRegs_i (k : Nat) (bs : List Byte) (s : State) : (loadRegs k bs s).i = s.i := by
  induction bs generalizing k s with
  | nil => rfl
  | cons b bs ih => rw [loadRegs, ih, setV_i]

@[simp] theorem loadRegs_pc (k : Nat) (bs : List Byte) (s : State) : (loadRegs k bs s).pc = s.pc := by
  induction bs generalizing k s with
  | nil => rfl
  | cons b bs ih => rw [loadRegs, ih, setV_pc]

@[simp] theorem loadRegs_sp (k : Nat) (bs : List Byte) (s : State) : (loadRegs k bs s).sp = s.sp := by
  induction bs generalizing k s with
  | nil => rfl
  | cons b bs ih => rw [loadRegs, ih, setV_sp]

@[simp] theorem loadRegs_stack (k : Nat) (bs : List Byte) (s : State) : (loadRegs k bs s).stack = s.stack := by
  induction bs generalizing k s with
  | nil => rfl
  | cons b bs ih => rw [loadRegs, ih, setV_stack]

@[simp] theorem loadRegs_dt (k : Nat) (bs : List Byte) (s : State) : (loadRegs k bs s).dt = s.dt := by
  induction bs generalizing k s with
  | nil => rfl
  | cons b bs ih => rw [loadRegs, ih, setV_dt]

@[simp] theorem loadRegs_st (k : Nat) (bs : List Byte) (s : State) : (loadRegs k bs s).st = s.st := by
  induction bs generalizing k s with
  | nil => rfl
  | cons b bs ih => rw [loadRegs, ih, setV_st]

@[simp] theorem loadRegs_run (k : Nat) (bs : List Byte) (s : State) : (loadRegs k bs s).run = s.run := by
  induction bs generalizing k s with
  | nil => rfl
  | cons b bs ih => rw [loadRegs, ih, setV_run]

@[simp] theorem loadRegs_err (k : Nat) (bs : List Byte) (s : State) : (loadRegs k bs s).err = s.err := by
  induction bs generalizing k s with
  | nil => rfl
  | cons b bs ih => rw [loadRegs, ih, setV_err]

@[simp] theorem loadRegs_keyPrev (k : Nat) (bs : List Byte) (s : State) : (loadRegs k bs s).keyPrev = s.keyPrev := by
  induction bs generalizing k s with
  | nil => rfl
  | cons b bs ih => rw [loadRegs, ih, setV_keyPrev]

@[simp] theorem loadRegs_fb (k : Nat) (bs : List Byte) (s : State) : (loadRegs k bs s).fb = s.fb := by
  induction bs generalizing k s with
  | nil => rfl
  | cons b bs ih => rw [loadRegs, ih, setV_fb]

@[simp] theorem loadRegs_mem (k : Nat) (bs : List Byte) (s : State) : (loadRegs k bs s).mem = s.mem := by
  induction bs generalizing k s with
  | nil => rfl
  | cons b bs ih => rw [loadRegs, ih, setV_mem]

@[simp] theorem loadRegs_cfg (k : Nat) (bs : List Byte) (s : State) : (loadRegs k bs s).cfg = s.cfg := by
  induction bs generalizing k s with
  | nil => rfl
  | cons b bs ih => rw [loadRegs, ih, setV_cfg]

@[simp] theorem loadRegs_request (k : Nat) (bs : List Byte) (s : State) : (loadRegs k bs s).request = s.request := by
  induction bs generalizing k s with
  | nil => rfl
  | cons b bs ih => rw [loadRegs, ih, setV_request]

@[simp] theorem loadRegs_inputs (k : Nat) (bs : List Byte) (s : State) : (loadRegs k bs s).inputs = s.inputs := by
  induction bs generalizing k s with
  | nil => rfl
  | cons b bs ih => rw [loadRegs, ih, setV_inputs]

@[simp] theorem loadRegs_drawn (k : Nat) (bs : List Byte) (s : State) : (loadRegs k bs s).drawn = s.drawn := by
  induction bs generalizing k s with
  | nil => rfl
  | cons b bs ih => rw [loadRegs, ih, setV_drawn]

/-! ### writeBytes -/

@[simp] theorem writeBytes_v (as : List Nat) (bs : List Byte) (s : State) : (writeBytes as bs s).v = s.v := by
  fun_induction writeBytes as bs s with
  | case1 a as b bs s ih => rw [ih, writeByte_v]
  | case2 => rfl

@[simp] theorem writeBytes_i (as : List Nat) (bs : List Byte) (s : State) : (writeBytes as bs s).i = s.i := by
  fun_induction writeBytes as bs s with
  | case1 a as b bs s ih => rw [ih, writeByte_i]
  | case2 => rfl

@[simp] theorem writeBytes_pc (as : List Nat) (bs : List Byte) (s : State) : (writeBytes as bs s).pc = s.pc := by
  fun_induction writeBytes as bs s with
  | case1 a as b bs s ih => rw [ih, writeByte_pc]
  | case2 => rfl

@[simp] theorem writeBytes_sp (as : List Nat) (bs : List Byte) (s : State) : (writeBytes as bs s).sp = s.sp := by
  fun_induction writeBytes as bs s with
  | case1 a as b bs s ih => rw [ih, writeByte_sp]
  | case2 => rfl

@[simp] theorem writeBytes_stack (as : List Nat) (bs : List Byte) (s : State) : (writeBytes as bs s).stack = s.stack := by
  fun_induction writeBytes as bs s with
  | case1 a as b bs s ih => rw [ih, writeByte_stack]
  | case2 => rfl

@[simp] theorem writeBytes_dt (as : List Nat) (bs : List Byte) (s : State) : (writeBytes as bs s).dt = s.dt := by
  fun_induction writeBytes as bs s with
  | case1 a as b bs s ih => rw [ih, writeByte_dt]
  | case2 => rfl

@[simp] theorem writeBytes_st (as : List Nat) (bs : List Byte) (s : State) : (writeBytes as bs s).st = s.st := by
  fun_induction writeBytes as bs s with
  | case1 a as b bs s ih => rw [ih, writeByte_st]
  | case2 => rfl

@[simp] theorem writeBytes_run (as : List Nat) (bs : List Byte) (s : State) : (writeBytes as bs s).run = s.run := by
  fun_induction writeBytes as bs s with
  | case1 a as b bs s ih => rw [ih, writeByte_run]
  | case2 => rfl

@[simp] theorem writeBytes_err (as : List Nat) (bs : List Byte) (s : State) : (writeBytes as bs s).err = s.err := by
  fun_induction writeBytes as bs s with
  | case1 a as b bs s ih => rw [ih, writeByte_err]
  | case2 => rfl

@[simp] theorem writeBytes_keyPrev (as : List Nat) (bs : List Byte) (s : State) : (writeBytes as bs s).keyPrev = s.keyPrev := by
  fun_induction writeBytes as bs s with
  | case1 a as b bs s ih => rw [ih, writeByte_keyPrev]
  | case2 => rfl

@[simp] theorem writeBytes_fb (as : List Nat) (bs : List Byte) (s : State) : (writeBytes as bs s).fb = s.fb := by
  fun_induction writeBytes as bs s with
  | case1 a as b bs s ih => rw [ih, writeByte_fb]
  | case2 => rfl

@[simp] theorem writeBytes_cfg (as : List Nat) (bs : List Byte) (s : State) : (writeBytes as bs s).cfg = s.cfg := by
  fun_induction writeBytes as bs s with
  | case1 a as b bs s ih => rw [ih, writeByte_cfg]
  | case2 => rfl

@[simp] theorem writeBytes_request (as : List Nat) (bs : List Byte) (s : State) : (writeBytes as bs s).request = s.request := by
  fun_induction writeBytes as bs s with
  | case1 a as b bs s ih => rw [ih, writeByte_request]
  | case2 => rfl

@[simp] theorem writeBytes_inputs (as : List Nat) (bs : List Byte) (s : State) : (writeBytes as bs s).inputs = s.inputs := by
  fun_induction writeBytes as bs s with
  | case1 a as b bs s ih => rw [ih, writeByte_inputs]
  | case2 => rfl

@[simp] theorem writeBytes_drawn (as : List Nat) (bs : List Byte) (s : State) : (writeBytes as bs s).drawn = s.drawn := by
  fun_induction writeBytes as bs s with
  | case1 a as b bs s ih => rw [ih, writeByte_drawn]
  | case2 => rfl

/-! ### The fields the operations write -/

@[simp] theorem advance_pc (s : State) : (advance s).pc = s.pc + 2 := rfl

@[simp] theorem skipIf_pc (c : Bool) (s : State) : (skipIf c s).pc = if c then s.pc + 2 + 2 else s.pc + 2 := rfl

@[simp] theorem jump_pc (target : Word) (s : State) : (jump target s).pc = target := rfl

@[simp] theorem raise_run (kind : ErrorKind) (w : Word) (s : State) : (raise kind w s).run = .halted := rfl

@[simp] theorem raise_err (kind : ErrorKind) (w : Word) (s : State) : (raise kind w s).err = ⟨kind, s.pc, w⟩ := rfl

@[simp] theorem raise_request (kind : ErrorKind) (w : Word) (s : State) :
    (raise kind w s).request = .halt ⟨kind, s.pc, w⟩ := rfl

@[simp] theorem beginStep_request (s : State) : (beginStep s).request = .none := rfl

@[simp] theorem awaitKey_run (x : Nibble) (s : State) : (awaitKey x s).run = .awaitKey x := rfl

@[simp] theorem awaitKey_request (x : Nibble) (s : State) : (awaitKey x s).request = .keyWait x := rfl

@[simp] theorem resolveWait_run (x key : Nibble) (s : State) : (resolveWait x key s).run = .running := rfl

@[simp] theorem resolveWait_request (x key : Nibble) (s : State) : (resolveWait x key s).request = .keyDone x key := rfl

@[simp] theorem resolveWait_pc (x key : Nibble) (s : State) : (resolveWait x key s).pc = s.pc + 2 := rfl

end Sys2Proof.Machine
end

