-- ==== Sys2Proof/Laws/Registers.lean ====
section
/-! SUPPORT. Reading a V register after each operation that writes one, and reading one through a state whose V is the same. -/

namespace Sys2Proof.Machine

theorem getV_congr {s t : State} (h : t.v = s.v) (r : Nibble) : getV t r = getV s r := by
  simp only [getV, h]

theorem getV_setV (x r : Nibble) (b : Byte) (s : State) : getV (setV x b s) r = if r = x then b else getV s r := by
  simp only [getV, setV, Vector.getElem_set]
  by_cases h : r = x
  · simp [h]
  · have hne : ¬ x.toNat = r.toNat := fun e => h (BitVec.eq_of_toNat_eq e.symm)
    simp [h, hne]

theorem getV_setResultThenFlag (x r : Nibble) (result flag : Byte) (s : State) :
    getV (setResultThenFlag x result flag s) r = if r = 0xF then flag else if r = x then result else getV s r := by
  simp only [setResultThenFlag, setVF, getV_setV]

/-- What `loadRegs` leaves in each register: the byte given for it, in the range it covers, and the old value elsewhere. -/
theorem getV_loadRegs (k : Nat) (bs : List Byte) (s : State) (r : Nibble) (h : k + bs.length ≤ 16) :
    getV (loadRegs k bs s) r = if k ≤ r.toNat then bs.getD (r.toNat - k) (getV s r) else getV s r := by
  induction bs generalizing k s with
  | nil => simp [loadRegs]
  | cons b bs ih =>
    simp only [List.length_cons] at h
    have hk : (BitVec.ofNat 4 k).toNat = k := by simp; omega
    rw [loadRegs, ih (k + 1) _ (by omega), getV_setV]
    by_cases hr : r = BitVec.ofNat 4 k
    · have : r.toNat = k := by rw [hr, hk]
      simp [hr, hk]
    · have hne : r.toNat ≠ k := fun e => hr (BitVec.eq_of_toNat_eq (by rw [hk, e]))
      rw [if_neg hr]
      by_cases hlt : k + 1 ≤ r.toNat
      · have e : r.toNat - k = (r.toNat - (k + 1)) + 1 := by omega
        rw [if_pos hlt, if_pos (by omega), e, List.getD_cons_succ]
      · rw [if_neg hlt, if_neg (by omega)]

theorem regsUpTo_length (x : Nibble) (s : State) : (regsUpTo x s).length = x.toNat + 1 := by simp [regsUpTo]

theorem regsUpTo_getElem (x : Nibble) (s : State) (k : Nat) (h : k < (regsUpTo x s).length) :
    (regsUpTo x s)[k] = getV s (BitVec.ofNat 4 k) := by simp [regsUpTo]

end Sys2Proof.Machine
end

