-- ==== Sys2Proof/Laws/Memory.lean ====
section
/-! SUPPORT. The memory operations: reading after writing, the canonical form, the address policy, and blocks of bytes. -/

namespace Sys2Proof.Machine

/-! ### The list of cells -/

theorem lookupCell_putCell (m : Memory) (a c : Nat) (b : Byte) :
    lookupCell (putCell m a b) c = if c = a then some b else lookupCell m c := by
  induction m with
  | nil => simp only [putCell, lookupCell]; split <;> split <;> first | rfl | omega
  | cons p m ih =>
    obtain ⟨k, d⟩ := p
    simp only [putCell]
    split
    · simp only [lookupCell]
      by_cases h : a = c <;> simp [h, eq_comm]
    · split
      · subst_vars
        simp only [lookupCell]
        by_cases h : k = c <;> simp [h, eq_comm]
        intro e; exact absurd e.symm h
      · simp only [lookupCell, ih]
        by_cases h : k = c
        · subst h; simp [Ne.symm (by assumption : ¬ a = k)]
        · simp [h]

theorem lookupCell_dropCell (m : Memory) (a c : Nat) :
    lookupCell (dropCell m a) c = if c = a then none else lookupCell m c := by
  induction m with
  | nil => simp [dropCell, lookupCell]
  | cons p m ih =>
    obtain ⟨k, d⟩ := p
    simp only [dropCell] at ih ⊢
    by_cases h : k = a
    · subst h
      simp only [List.filter_cons, bne_self_eq_false, Bool.false_eq_true, if_false, ih, lookupCell]
      by_cases hc : c = k
      · simp [hc]
      · simp [hc, Ne.symm hc]
    · simp only [List.filter_cons, bne_iff_ne, ne_eq, h, not_false_eq_true, if_true, lookupCell, ih]
      by_cases hc : k = c
      · subst hc; simp [h]
      · simp [hc]

theorem mem_putCell {m : Memory} {a : Nat} {b : Byte} {c : Host.Cell} (h : c ∈ putCell m a b) : c = (a, b) ∨ c ∈ m := by
  induction m with
  | nil => simpa [putCell] using h
  | cons p m ih =>
    simp only [putCell] at h
    split at h
    · simpa using h
    · split at h
      · rcases List.mem_cons.1 h with e | e
        · exact .inl e
        · exact .inr (List.mem_cons_of_mem _ e)
      · rcases List.mem_cons.1 h with e | e
        · exact .inr (e ▸ List.mem_cons_self)
        · exact (ih e).imp id (List.mem_cons_of_mem _)

theorem putCell_rising {m : Memory} (h : m.Pairwise fun p q => p.1 < q.1) (a : Nat) (b : Byte) :
    (putCell m a b).Pairwise fun p q => p.1 < q.1 := by
  induction m with
  | nil => simp [putCell]
  | cons p m ih =>
    obtain ⟨hp, hm⟩ := List.pairwise_cons.1 h
    simp only [putCell]
    split
    · rename_i hlt
      refine List.pairwise_cons.2 ⟨fun q hq => ?_, h⟩
      rcases List.mem_cons.1 hq with e | e
      · exact e ▸ hlt
      · exact lt_trans hlt (hp q e)
    · split
      · subst_vars
        exact List.pairwise_cons.2 ⟨hp, hm⟩
      · refine List.pairwise_cons.2 ⟨fun q hq => ?_, ih hm⟩
        rcases mem_putCell hq with e | e
        · subst e; simp only; omega
        · exact hp q e

/-! ### Bytes -/

theorem readByte_congr {s t : State} (hm : t.mem = s.mem) (hc : t.cfg = s.cfg) (a : Nat) : readByte t a = readByte s a := by
  simp only [readByte, hm, hc]

/-- Reading after a write: the written address gives the byte, every other what it gave before (R46). -/
theorem readByte_writeByte (a c : Nat) (b : Byte) (s : State) :
    readByte (writeByte a b s) c = if c = a then b else readByte s c := by
  simp only [readByte, writeByte]
  by_cases hb : b = resetByte s.cfg a
  · rw [if_pos hb, lookupCell_dropCell]
    by_cases h : c = a
    · simp [h, hb]
    · simp [h]
  · rw [if_neg hb, lookupCell_putCell]
    by_cases h : c = a <;> simp [h]

/-- A write inside the 4096 bytes keeps the canonical form. -/
theorem writeByte_wf {s : State} (h : Memory.wf s.cfg s.mem) {a : Nat} (ha : a < 4096) (b : Byte) :
    Memory.wf s.cfg (writeByte a b s).mem := by
  simp only [writeByte]
  split
  · exact ⟨h.1.filter _, fun c hc => h.2 c (List.mem_of_mem_filter hc)⟩
  · rename_i hb
    refine ⟨putCell_rising h.1 a b, fun c hc => ?_⟩
    rcases mem_putCell hc with e | e
    · subst e; exact ⟨ha, hb⟩
    · exact h.2 c e

/-- Writing a block leaves every other address alone. -/
theorem readByte_writeBytes_of_notMem (as : List Nat) (bs : List Byte) (s : State) (c : Nat) (h : c ∉ as) :
    readByte (writeBytes as bs s) c = readByte s c := by
  fun_induction writeBytes as bs s with
  | case1 a as b bs s ih =>
    simp only [List.mem_cons, not_or] at h
    rw [ih h.2, readByte_writeByte, if_neg h.1]
  | case2 => rfl

/-- Writing a block at distinct addresses leaves each byte at its address. -/
theorem readByte_writeBytes (as : List Nat) (bs : List Byte) (s : State) (hd : as.Nodup) (k : Nat) (ha : k < as.length)
    (hb : k < bs.length) : readByte (writeBytes as bs s) as[k] = bs[k] := by
  induction as generalizing bs s k with
  | nil => simp at ha
  | cons a as ih =>
    cases bs with
    | nil => simp at hb
    | cons b bs =>
      obtain ⟨hna, hd⟩ := List.nodup_cons.1 hd
      rw [writeBytes]
      cases k with
      | zero =>
        simp only [List.getElem_cons_zero]
        rw [readByte_writeBytes_of_notMem _ _ _ _ hna, readByte_writeByte, if_pos rfl]
      | succ k =>
        simp only [List.getElem_cons_succ]
        exact ih bs _ hd k _ _

theorem writeBytes_wf {as : List Nat} {bs : List Byte} {s : State} (h : Memory.wf s.cfg s.mem) (ha : ∀ a ∈ as, a < 4096) :
    Memory.wf s.cfg (writeBytes as bs s).mem := by
  fun_induction writeBytes as bs s with
  | case1 a as b bs s ih =>
    exact ih (writeByte_wf h (ha a List.mem_cons_self) b) fun c hc => ha c (List.mem_cons_of_mem _ hc)
  | case2 => exact h

/-! ### The address policy -/

theorem addr_lt {cfg : Config} {ea a : Nat} (h : addr cfg ea = some a) : a < 4096 := by
  unfold addr at h
  split at h
  · cases h; omega
  · split at h <;> cases h; assumption

/-- The address an effective address reaches is that address mod 4096, under either policy (R33). -/
theorem addr_eq_mod {cfg : Config} {ea a : Nat} (h : addr cfg ea = some a) : a = ea % 4096 := by
  unfold addr at h
  split at h
  · cases h; rfl
  · split at h <;> cases h; omega

/-- Everything `addrs` can answer: the block's addresses mod 4096, unless the policy is FAULT and the block is not empty and
ends at 4096 or beyond (R33, R34, R109). -/
theorem addrs_eq (cfg : Config) (ea n : Nat) :
    addrs cfg ea n =
      if cfg.addrPolicy = .fault ∧ 0 < n ∧ 4096 ≤ ea + n - 1 then none
      else some ((List.range' ea n).map (· % 4096)) := by
  induction n generalizing ea with
  | zero => simp [addrs]
  | succ n ih =>
    rw [addrs, ih (ea + 1)]
    cases hp : cfg.addrPolicy with
    | wrap => simp [addr, hp, List.range'_succ]
    | fault =>
      simp only [addr, hp, true_and]
      by_cases hlt : ea < 4096
      · rw [if_pos hlt]
        by_cases hn : 0 < n ∧ 4096 ≤ ea + 1 + n - 1
        · rw [if_pos hn, if_pos (by omega)]
        · rw [if_neg hn, if_neg (by omega)]
          simp only [List.range'_succ, List.map_cons, Nat.mod_eq_of_lt hlt]
      · rw [if_neg hlt, if_pos (show 0 < n + 1 ∧ 4096 ≤ ea + (n + 1) - 1 by omega)]

theorem addrs_lt {cfg : Config} {ea n : Nat} {as : List Nat} (h : addrs cfg ea n = some as) : ∀ a ∈ as, a < 4096 := by
  rw [addrs_eq] at h
  split at h
  · cases h
  · cases h
    intro a ha
    obtain ⟨k, -, rfl⟩ := List.mem_map.1 ha
    exact Nat.mod_lt _ (by decide)

theorem addrs_length {cfg : Config} {ea n : Nat} {as : List Nat} (h : addrs cfg ea n = some as) : as.length = n := by
  rw [addrs_eq] at h
  split at h
  · cases h
  · cases h; simp

theorem addrs_getElem {cfg : Config} {ea n : Nat} {as : List Nat} (h : addrs cfg ea n = some as) (k : Nat)
    (hk : k < as.length) : as[k] = (ea + k) % 4096 := by
  rw [addrs_eq] at h
  split at h
  · cases h
  · cases h; simp

/-- The addresses of a block of at most 4096 bytes are distinct. -/
theorem addrs_nodup {cfg : Config} {ea n : Nat} {as : List Nat} (h : addrs cfg ea n = some as) (hn : n ≤ 4096) :
    as.Nodup := by
  rw [addrs_eq] at h
  split at h
  · cases h
  · cases h
    refine List.Nodup.map_on (fun a ha b hb e => ?_) (List.nodup_range' (step := 1))
    rw [List.mem_range'_1] at ha hb
    omega

end Sys2Proof.Machine
end

