-- ==== Sys2Proof/Laws/Step.lean ====
section
/-! SUPPORT. What a step can do, said once; the fetch, the ticks, the stack and the key selection as equations. -/

namespace Sys2Proof.Machine

/-! ### The step -/

theorem endResult_eq_next {r : Result} {t : State} : endResult r = .next t ↔ ∃ u, r = .next u ∧ t = endStep u := by
  cases r with
  | next u => simp [endResult, eq_comm]
  | fault f => simp [endResult]
  | refused f => simp [endResult]

/-- Everything a step that answers a next state can have been. -/
theorem step_next {s t : State} (h : step s = .next t) :
    s.cfg.wellFormed = true ∧ ∃ u, stepCore (beginStep s) = .next u ∧ t = endStep u := by
  unfold step at h
  split at h
  · exact ⟨by assumption, endResult_eq_next.1 h⟩
  · cases h

/-- Everything the CORE's own step that answers a next state can have been (R54). -/
theorem stepCore_next {s t : State} (h : stepCore s = .next t) :
    (s.run = .halted ∧ t = s) ∨ (∃ x, s.run = .awaitKey x ∧ t = poll x s) ∨
      (s.run = .running ∧ ((∃ i, fetchDecode s = .instr i ∧ exec i s = .next t) ∨ fetchDecode s = .error t)) := by
  unfold stepCore at h
  split at h
  · exact .inl ⟨by assumption, by cases h; rfl⟩
  · exact .inr (.inl ⟨_, by assumption, by cases h; rfl⟩)
  · split at h
    · exact .inr (.inr ⟨by assumption, .inl ⟨_, by assumption, h⟩⟩)
    · exact .inr (.inr ⟨by assumption, .inr (by cases h; assumption)⟩)

/-! ### The fetch -/

theorem fetch_congr {s t : State} (hp : t.pc = s.pc) (hm : t.mem = s.mem) (hc : t.cfg = s.cfg) : fetch t = fetch s := by
  have hr : readByte t = readByte s := funext (readByte_congr hm hc)
  simp only [fetch, memRead, hp, hc, hr]

/-- The fetch under WRAP: two bytes, each address mod 4096, the byte at the lower address in bits 15:8 (R40, R55). -/
theorem fetch_wrap {s : State} (h : s.cfg.addrPolicy = .wrap) :
    fetch s = some (assemble (readByte s (s.pc.toNat % 4096)) (readByte s ((s.pc.toNat + 1) % 4096))) := by
  simp [fetch, memRead, addr, h]

/-- The fetch under FAULT (R55). -/
theorem fetch_fault {s : State} (h : s.cfg.addrPolicy = .fault) :
    fetch s = if s.pc.toNat + 1 < 4096 then some (assemble (readByte s s.pc.toNat) (readByte s (s.pc.toNat + 1))) else none := by
  simp only [fetch, memRead, addr, h]
  by_cases h' : s.pc.toNat + 1 < 4096
  · rw [if_pos h', if_pos (by omega), if_pos h']
    rfl
  · rw [if_neg h', if_neg h']
    split <;> simp_all

/-- A valid word decodes to an instruction, and is fetched as that instruction. -/
theorem fetchDecode_instr {s : State} {w : Word} {i : Instr} (hf : fetch s = some w) (hd : decode w = .instr i) :
    fetchDecode s = .instr i := by
  simp only [fetchDecode, hf, hd]

/-- Everything `fetchDecode` can answer. -/
theorem fetchDecode_cases (s : State) :
    (fetch s = none ∧ fetchDecode s = .error (raise .outOfBoundsAddress 0x0000 s)) ∨
      (∃ w w', fetch s = some w ∧ decode w = .invalid w' ∧ fetchDecode s = .error (raise .invalidOpcode w s)) ∨
        ∃ w i, fetch s = some w ∧ decode w = .instr i ∧ fetchDecode s = .instr i := by
  cases hf : fetch s with
  | none => exact .inl ⟨rfl, by simp only [fetchDecode, hf]⟩
  | some w =>
    cases hd : decode w with
    | instr i => exact .inr (.inr ⟨w, i, rfl, hd, by simp only [fetchDecode, hf, hd]⟩)
    | invalid w' => exact .inr (.inl ⟨w, w', rfl, hd, by simp only [fetchDecode, hf, hd]⟩)

/-! ### The ticks -/

theorem countDown_toNat (t : Byte) : (countDown t).toNat = t.toNat - 1 := by
  unfold countDown
  split
  · subst_vars; rfl
  · have := t.isLt
    have hne : t.toNat ≠ 0 := fun e => by simp_all [BitVec.toNat_eq]
    simp [BitVec.toNat_sub]
    omega

/-- `k` ticks outside HALTED: each timer `k` lower, floored at 0 (R114). -/
theorem ticks_timers {s : State} (h : s.run ≠ .halted) (k : Nat) :
    (ticks k s).dt.toNat = s.dt.toNat - k ∧ (ticks k s).st.toNat = s.st.toNat - k := by
  induction k generalizing s with
  | zero => exact ⟨rfl, rfl⟩
  | succ k ih =>
    have ht : tick s = { s with dt := countDown s.dt, st := countDown s.st } := by simp only [tick, if_neg h]
    have := ih (s := tick s) (by rw [tick_run]; exact h)
    rw [ticks, this.1, this.2, ht]
    simp only [countDown_toNat]
    omega

/-- Ticks in HALTED change nothing (R116). -/
theorem ticks_halted {s : State} (h : s.run = .halted) (k : Nat) : ticks k s = s := by
  induction k with
  | zero => rfl
  | succ k ih => rw [ticks, tick, if_pos h, ih]

/-! ### The stack -/

theorem push_eq_some {v : Word} {s t : State} (h : push v s = some t) :
    ∃ hs : s.sp.toNat < 16, t = { s with stack := s.stack.set s.sp.toNat v hs, sp := s.sp + 1 } := by
  unfold push at h
  split at h
  · exact ⟨by assumption, by cases h; rfl⟩
  · cases h

theorem push_of_lt (v : Word) {s : State} (hs : s.sp.toNat < 16) :
    push v s = some { s with stack := s.stack.set s.sp.toNat v hs, sp := s.sp + 1 } := by
  simp only [push, hs, dite_true]

theorem popPC_eq_some {s t : State} (h : popPC s = some t) :
    ∃ hs : (s.sp - 1).toNat < 16, t = { s with sp := s.sp - 1, pc := s.stack[(s.sp - 1).toNat] } := by
  unfold popPC at h
  split at h
  · exact ⟨by assumption, by cases h; rfl⟩
  · cases h

theorem popPC_of_lt {s : State} (hs : (s.sp - 1).toNat < 16) :
    popPC s = some { s with sp := s.sp - 1, pc := s.stack[(s.sp - 1).toNat] } := by
  simp only [popPC, hs, dite_true]

/-! ### Key selection -/

/-- The lowest pressed key is pressed, and no lower one is (R105). -/
theorem lowestKey_spec {p : BitVec 16} (hp : p ≠ 0) :
    p.getLsbD (lowestKey p).toNat = true ∧ ∀ j < (lowestKey p).toNat, p.getLsbD j = false := by
  unfold lowestKey
  cases hf : (List.range 16).find? fun k => p.getLsbD k with
  | none =>
    rw [List.find?_eq_none] at hf
    refine absurd (BitVec.eq_of_getLsbD_eq fun i hi => ?_) hp
    simpa using hf i (List.mem_range.2 hi)
  | some k =>
    have hk := List.mem_range.1 (List.mem_of_find?_eq_some hf)
    have e : (BitVec.ofNat 4 k).toNat = k := by simp; omega
    simp only [Option.getD_some, e]
    refine ⟨by simpa using List.find?_some hf, fun j hj => ?_⟩
    have := List.find?_range_eq_some.1 hf
    simpa using this.2.2 j hj

/-- Whatever the configuration, the selected key is a pressed one (R105). -/
theorem select_pressed (cfg : Config) (pick : Nibble) {p : BitVec 16} (hp : p ≠ 0) :
    p.getLsbD (select cfg pick p).toNat = true := by
  unfold select
  split
  · exact (lowestKey_spec hp).1
  · split
    · assumption
    · exact (lowestKey_spec hp).1

end Sys2Proof.Machine
end

