-- ==== Sys2Proof/Laws/Exec.lean ====
section
/-! SUPPORT. What the shared operations come to in a meaning: the frame of a repeated operation as a record, the program counter,
the flags, a block of addresses under the policy, and what kinds of next state `exec` answers. -/

namespace Sys2Proof.Machine

/-! ### Frames -/

/-- Writing a block changes memory only. -/
theorem writeBytes_frame (as : List Nat) (bs : List Byte) (s : State) :
    writeBytes as bs s = { s with mem := (writeBytes as bs s).mem } := by
  fun_induction writeBytes as bs s with
  | case1 a as b bs s ih => rw [ih]; simp [writeByte]
  | case2 => rfl

/-- Loading registers changes V only. -/
theorem loadRegs_frame (k : Nat) (bs : List Byte) (s : State) :
    loadRegs k bs s = { s with v := (loadRegs k bs s).v } := by
  induction bs generalizing k s with
  | nil => rfl
  | cons b bs ih => rw [loadRegs, ih]; rfl

/-- A tick changes the timers only. -/
theorem tick_frame (s : State) : tick s = { s with dt := (tick s).dt, st := (tick s).st } := by
  unfold tick; split <;> rfl

/-- Ticks change the timers only. -/
theorem ticks_frame (k : Nat) (s : State) : ticks k s = { s with dt := (ticks k s).dt, st := (ticks k s).st } := by
  induction k generalizing s with
  | zero => rfl
  | succ k ih => rw [ticks, ih]; simp

/-- Writing a block writes the same bytes whatever the fields outside memory and the configuration are. -/
theorem writeBytes_mem_congr (as : List Nat) (bs : List Byte) {s t : State} (hm : t.mem = s.mem) (hc : t.cfg = s.cfg) :
    (writeBytes as bs t).mem = (writeBytes as bs s).mem := by
  induction as generalizing bs s t with
  | nil => exact hm
  | cons a as ih =>
    cases bs with
    | nil => exact hm
    | cons b bs => exact ih bs (by simp only [writeByte, hm, hc]) hc

/-! ### The program counter -/

/-- The fetch-time advance as a number (R56). -/
theorem pc_add_two_toNat (s : State) : (s.pc + 2).toNat = (s.pc.toNat + 2) % 65536 := by
  rw [BitVec.toNat_add]; rfl

theorem inSequence_advance {s t : State} (h : t.pc = s.pc) : InSequence s (advance t) := by
  rw [InSequence, advance_pc, h, pc_add_two_toNat]

/-- A skip is one extra 2 (R74). -/
theorem skipIf_pc_toNat (c : Bool) (s : State) : (skipIf c s).pc.toNat = (s.pc.toNat + if c then 4 else 2) % 65536 := by
  cases c <;> simp

theorem getV_advance (s : State) (r : Nibble) : getV (advance s) r = getV s r := rfl

theorem readByte_advance (s : State) (a : Nat) : readByte (advance s) a = readByte s a := rfl

/-! ### The flags -/

theorem flagByte_toNat (c : Bool) : (flagByte c).toNat = if c then 1 else 0 := by cases c <;> rfl

/-- A flag is 0x00 or 0x01 (R15). -/
theorem flagByte_zero_or_one (c : Bool) : flagByte c = 0x00 ∨ flagByte c = 0x01 := by cases c <;> simp [flagByte]

/-! ### Blocks of memory -/

/-- A block that raises nothing: its addresses, mod 4096 (R33). -/
theorem addrs_of_inside {s : State} {n : Nat} (h : ¬ BlockOutOfBounds s n) :
    addrs s.cfg s.i.toNat n = some ((List.range' s.i.toNat n).map (· % 4096)) := by
  rw [addrs_eq]; exact if_neg h

/-- A block that raises (R33, R109). -/
theorem addrs_of_outOfBounds {s : State} {n : Nat} (h : BlockOutOfBounds s n) : addrs s.cfg s.i.toNat n = none := by
  rw [addrs_eq]; exact if_pos h

/-- Each address of a block that raises nothing. -/
theorem addr_of_inside {s : State} {n k : Nat} (h : ¬ BlockOutOfBounds s n) (hk : k < n) :
    addr s.cfg (s.i.toNat + k) = some ((s.i.toNat + k) % 4096) := by
  unfold addr
  split
  · rfl
  · have : ¬ (0 < n ∧ 4096 ≤ s.i.toNat + n - 1) := fun e => h ⟨by assumption, e⟩
    rw [if_pos (by omega), Nat.mod_eq_of_lt (by omega)]

/-- What a stored block of at most 4096 bytes leaves: its bytes at its addresses, and every other byte as before. -/
theorem readByte_storedBlock {s : State} {bs : List Byte} (hn : bs.length ≤ 4096) (h : ¬ BlockOutOfBounds s bs.length) :
    (∀ k (hk : k < bs.length) a, addr s.cfg (s.i.toNat + k) = some a →
      readByte (writeBytes ((List.range' s.i.toNat bs.length).map (· % 4096)) bs s) a = bs[k]) ∧
    ∀ a, (∀ k < bs.length, addr s.cfg (s.i.toNat + k) ≠ some a) →
      readByte (writeBytes ((List.range' s.i.toNat bs.length).map (· % 4096)) bs s) a = readByte s a := by
  constructor
  · intro k hk a ha
    rw [addr_of_inside h hk] at ha
    cases ha
    have := readByte_writeBytes _ bs s (addrs_nodup (addrs_of_inside h) hn) k (by simpa using hk) hk
    simpa using this
  · intro a ha
    apply readByte_writeBytes_of_notMem
    intro hm
    obtain ⟨b, hb, rfl⟩ := List.mem_map.1 hm
    rw [List.mem_range'_1] at hb
    apply ha (b - s.i.toNat) (by omega)
    rw [addr_of_inside h (by omega), show s.i.toNat + (b - s.i.toNat) = b by omega]

/-! ### The outcomes of an instruction -/

/-- Every next state of an instruction is one of three: the state halted by an error that names the instruction (R107); a state
with RUN and ERR as they were; the key wait of its own LD Vx,K (R103). -/
theorem exec_next_cases {i : Instr} {s t : State} (h : exec i s = .next t) :
    (∃ kind, kind ≠ .none ∧ t = raise kind (encode i) s) ∨ (t.run = s.run ∧ t.err = s.err) ∨
      ∃ x, i = .ldVxK x ∧ t.run = .awaitKey x ∧ t.err = s.err := by
  cases i
  case ret =>
    simp only [exec, execRet] at h
    split at h
    · cases h; exact .inl ⟨_, by decide, rfl⟩
    · split at h
      · rename_i hp; cases h; obtain ⟨_, rfl⟩ := popPC_eq_some hp; exact .inr (.inl ⟨rfl, rfl⟩)
      · cases h
  case callAddr nnn =>
    simp only [exec, execCallAddr] at h
    split at h
    · cases h; exact .inl ⟨_, by decide, rfl⟩
    · split at h
      · rename_i hp; cases h; obtain ⟨_, rfl⟩ := push_eq_some hp; exact .inr (.inl ⟨rfl, rfl⟩)
      · cases h
  case drwVxVyN =>
    simp only [exec, execDrwVxVyN] at h
    split at h <;> cases h
    · exact .inr (.inl ⟨rfl, rfl⟩)
    · exact .inl ⟨_, by decide, rfl⟩
  case ldBVx =>
    simp only [exec, execLdBVx] at h
    split at h <;> cases h
    · exact .inr (.inl ⟨by simp, by simp⟩)
    · exact .inl ⟨_, by decide, rfl⟩
  case ldMemIVx =>
    simp only [exec, execLdMemIVx] at h
    split at h <;> cases h
    · exact .inr (.inl ⟨by simp, by simp⟩)
    · exact .inl ⟨_, by decide, rfl⟩
  case ldVxMemI =>
    simp only [exec, execLdVxMemI] at h
    split at h <;> cases h
    · exact .inr (.inl ⟨by simp, by simp⟩)
    · exact .inl ⟨_, by decide, rfl⟩
  case ldVxK x =>
    simp only [exec, execLdVxK] at h
    split at h <;> cases h
    · by_cases hk : s.inputs.keys = 0
      · rw [if_pos hk]; exact .inr (.inr ⟨x, rfl, rfl, rfl⟩)
      · rw [if_neg hk]; exact .inr (.inl ⟨rfl, rfl⟩)
    · exact .inr (.inr ⟨x, rfl, rfl, rfl⟩)
  case addIVx =>
    simp only [exec, execAddIVx] at h
    cases h
    refine .inr (.inl ⟨?_, ?_⟩) <;> (cases s.cfg.addISetsVF <;> rfl)
  all_goals (cases h; exact .inr (.inl ⟨rfl, rfl⟩))

end Sys2Proof.Machine
end

