-- ==== Sys2Proof/Laws/PerInstr.lean ====
section
/-! SUPPORT. The per-instruction family EncodeRow: the word of an instruction is selected by the instruction's own row of the
opcode map (R58). -/

namespace Sys2Proof.Laws.EncodeRow

/-- The instruction's row stands in the opcode map, and it selects the instruction's word (R58). -/
def Statement (i : Instr) : Prop := i.row ∈ opcodeMap ∧ encode i &&& i.row.mask = i.row.value

theorem nibble_and_ones (n : Nibble) : n &&& 0xF = n := BitVec.and_allOnes

theorem nibble_and_zero (n : Nibble) : n &&& 0 = 0 := BitVec.and_zero

theorem byte_and_ones (b : Byte) : b &&& 0xFF = b := BitVec.and_allOnes

theorem byte_and_zero (b : Byte) : b &&& 0 = 0 := BitVec.and_zero

theorem addr12_and_zero (a : Addr12) : a &&& 0 = 0 := BitVec.and_zero

theorem row_nnn {r : OpRow} {op : Nibble} (hm : r.mask = fmtNNN 0xF 0) (hv : r.value = fmtNNN op 0) (nnn : Addr12) :
    fmtNNN op nnn &&& r.mask = r.value := by
  rw [hm, hv, fmtNNN_and, nibble_and_ones, addr12_and_zero]

theorem row_xkk {r : OpRow} {op : Nibble} (hm : r.mask = fmtXKK 0xF 0 0) (hv : r.value = fmtXKK op 0 0) (x : Nibble)
    (kk : Byte) : fmtXKK op x kk &&& r.mask = r.value := by
  rw [hm, hv, fmtXKK_and, nibble_and_ones, nibble_and_zero, byte_and_zero]

theorem row_xss {r : OpRow} {op : Nibble} {sub : Byte} (hm : r.mask = fmtXKK 0xF 0 0xFF) (hv : r.value = fmtXKK op 0 sub)
    (x : Nibble) : fmtXKK op x sub &&& r.mask = r.value := by
  rw [hm, hv, fmtXKK_and, nibble_and_ones, nibble_and_zero, byte_and_ones]

theorem row_xys {r : OpRow} {op n : Nibble} (hm : r.mask = fmtXYN 0xF 0 0 0xF) (hv : r.value = fmtXYN op 0 0 n)
    (x y : Nibble) : fmtXYN op x y n &&& r.mask = r.value := by
  rw [hm, hv, fmtXYN_and, nibble_and_ones, nibble_and_zero, nibble_and_zero, nibble_and_ones]

theorem row_xyn {r : OpRow} {op : Nibble} (hm : r.mask = fmtXYN 0xF 0 0 0) (hv : r.value = fmtXYN op 0 0 0)
    (x y n : Nibble) : fmtXYN op x y n &&& r.mask = r.value := by
  rw [hm, hv, fmtXYN_and, nibble_and_ones, nibble_and_zero, nibble_and_zero, nibble_and_zero]

theorem cls : Statement (.cls) :=
  ⟨by simp [opcodeMap, Instr.row], by decide⟩

theorem ret : Statement (.ret) :=
  ⟨by simp [opcodeMap, Instr.row], by decide⟩

theorem jpAddr (nnn : Addr12) : Statement (.jpAddr nnn) :=
  ⟨by simp [opcodeMap, Instr.row], row_nnn rfl rfl nnn⟩

theorem callAddr (nnn : Addr12) : Statement (.callAddr nnn) :=
  ⟨by simp [opcodeMap, Instr.row], row_nnn rfl rfl nnn⟩

theorem seVxKk (x : Nibble) (kk : Byte) : Statement (.seVxKk x kk) :=
  ⟨by simp [opcodeMap, Instr.row], row_xkk rfl rfl x kk⟩

theorem sneVxKk (x : Nibble) (kk : Byte) : Statement (.sneVxKk x kk) :=
  ⟨by simp [opcodeMap, Instr.row], row_xkk rfl rfl x kk⟩

theorem seVxVy (x y : Nibble) : Statement (.seVxVy x y) :=
  ⟨by simp [opcodeMap, Instr.row], row_xys rfl rfl x y⟩

theorem sneVxVy (x y : Nibble) : Statement (.sneVxVy x y) :=
  ⟨by simp [opcodeMap, Instr.row], row_xys rfl rfl x y⟩

theorem ldVxKk (x : Nibble) (kk : Byte) : Statement (.ldVxKk x kk) :=
  ⟨by simp [opcodeMap, Instr.row], row_xkk rfl rfl x kk⟩

theorem addVxKk (x : Nibble) (kk : Byte) : Statement (.addVxKk x kk) :=
  ⟨by simp [opcodeMap, Instr.row], row_xkk rfl rfl x kk⟩

theorem ldVxVy (x y : Nibble) : Statement (.ldVxVy x y) :=
  ⟨by simp [opcodeMap, Instr.row], row_xys rfl rfl x y⟩

theorem orVxVy (x y : Nibble) : Statement (.orVxVy x y) :=
  ⟨by simp [opcodeMap, Instr.row], row_xys rfl rfl x y⟩

theorem andVxVy (x y : Nibble) : Statement (.andVxVy x y) :=
  ⟨by simp [opcodeMap, Instr.row], row_xys rfl rfl x y⟩

theorem xorVxVy (x y : Nibble) : Statement (.xorVxVy x y) :=
  ⟨by simp [opcodeMap, Instr.row], row_xys rfl rfl x y⟩

theorem addVxVy (x y : Nibble) : Statement (.addVxVy x y) :=
  ⟨by simp [opcodeMap, Instr.row], row_xys rfl rfl x y⟩

theorem subVxVy (x y : Nibble) : Statement (.subVxVy x y) :=
  ⟨by simp [opcodeMap, Instr.row], row_xys rfl rfl x y⟩

theorem subnVxVy (x y : Nibble) : Statement (.subnVxVy x y) :=
  ⟨by simp [opcodeMap, Instr.row], row_xys rfl rfl x y⟩

theorem shrVx (x y : Nibble) : Statement (.shrVx x y) :=
  ⟨by simp [opcodeMap, Instr.row], row_xys rfl rfl x y⟩

theorem shlVx (x y : Nibble) : Statement (.shlVx x y) :=
  ⟨by simp [opcodeMap, Instr.row], row_xys rfl rfl x y⟩

theorem ldIAddr (nnn : Addr12) : Statement (.ldIAddr nnn) :=
  ⟨by simp [opcodeMap, Instr.row], row_nnn rfl rfl nnn⟩

theorem jpV0Addr (nnn : Addr12) : Statement (.jpV0Addr nnn) :=
  ⟨by simp [opcodeMap, Instr.row], row_nnn rfl rfl nnn⟩

theorem rndVxKk (x : Nibble) (kk : Byte) : Statement (.rndVxKk x kk) :=
  ⟨by simp [opcodeMap, Instr.row], row_xkk rfl rfl x kk⟩

theorem drwVxVyN (x y n : Nibble) : Statement (.drwVxVyN x y n) :=
  ⟨by simp [opcodeMap, Instr.row], row_xyn rfl rfl x y n⟩

theorem skpVx (x : Nibble) : Statement (.skpVx x) :=
  ⟨by simp [opcodeMap, Instr.row], row_xss rfl rfl x⟩

theorem sknpVx (x : Nibble) : Statement (.sknpVx x) :=
  ⟨by simp [opcodeMap, Instr.row], row_xss rfl rfl x⟩

theorem ldVxDT (x : Nibble) : Statement (.ldVxDT x) :=
  ⟨by simp [opcodeMap, Instr.row], row_xss rfl rfl x⟩

theorem ldDTVx (x : Nibble) : Statement (.ldDTVx x) :=
  ⟨by simp [opcodeMap, Instr.row], row_xss rfl rfl x⟩

theorem ldSTVx (x : Nibble) : Statement (.ldSTVx x) :=
  ⟨by simp [opcodeMap, Instr.row], row_xss rfl rfl x⟩

theorem addIVx (x : Nibble) : Statement (.addIVx x) :=
  ⟨by simp [opcodeMap, Instr.row], row_xss rfl rfl x⟩

theorem ldFVx (x : Nibble) : Statement (.ldFVx x) :=
  ⟨by simp [opcodeMap, Instr.row], row_xss rfl rfl x⟩

theorem ldBVx (x : Nibble) : Statement (.ldBVx x) :=
  ⟨by simp [opcodeMap, Instr.row], row_xss rfl rfl x⟩

theorem ldMemIVx (x : Nibble) : Statement (.ldMemIVx x) :=
  ⟨by simp [opcodeMap, Instr.row], row_xss rfl rfl x⟩

theorem ldVxMemI (x : Nibble) : Statement (.ldVxMemI x) :=
  ⟨by simp [opcodeMap, Instr.row], row_xss rfl rfl x⟩

theorem ldVxK (x : Nibble) : Statement (.ldVxK x) :=
  ⟨by simp [opcodeMap, Instr.row], row_xss rfl rfl x⟩

end Sys2Proof.Laws.EncodeRow
end

