-- ==== Sys2Proof/Laws/Reset.lean ====
section
/-! SUPPORT. The reset contents of memory (R38), and the canonical form of memory after reset, after the loader, and after a word
is placed for the next fetch. -/

namespace Sys2Proof.Machine

/-- A memory that lists nothing has the canonical form. -/
theorem memory_wf_nil (cfg : Config) : Memory.wf cfg [] := ⟨.nil, fun _ h => nomatch h⟩

theorem reset_memory_wf : Memory.wf State.reset.cfg State.reset.mem := memory_wf_nil _

theorem assertReset_memory_wf (s : State) : Memory.wf (assertReset s).cfg (assertReset s).mem := memory_wf_nil _

/-- After reset every byte reads as its reset contents (R38). -/
theorem readByte_assertReset (s : State) (a : Nat) : readByte (assertReset s) a = resetByte s.cfg a := rfl

theorem readByte_reset (a : Nat) : readByte State.reset a = resetByte hardwareConfig a := rfl

/-- The reset contents inside the font (R38). -/
theorem resetByte_font (cfg : Config) (k : Nat) (h : k < cfg.fontData.length) :
    resetByte cfg (cfg.fontBase + k) = cfg.fontData[k] := by
  simp [resetByte, h]

/-- The reset contents outside the font (R38). -/
theorem resetByte_outside (cfg : Config) (a : Nat) (h : a < cfg.fontBase ∨ cfg.fontBase + cfg.fontData.length ≤ a) :
    resetByte cfg a = 0x00 := by
  unfold resetByte
  split
  · rw [List.getD_eq_default]; omega
  · rfl

/-- The loader keeps the canonical form of memory (R39). -/
theorem loadImage_memory_wf {image : List Byte} {s t : State} (hs : Memory.wf s.cfg s.mem) (h : loadImage image s = .next t) :
    Memory.wf t.cfg t.mem := by
  unfold loadImage at h
  split at h
  · rename_i hl
    cases h
    rw [writeBytes_cfg]
    refine writeBytes_wf hs fun a ha => ?_
    obtain ⟨k, hk, rfl⟩ := List.mem_map.1 ha
    have := List.mem_range.1 hk
    omega
  · cases h

/-- Placing a word for the next fetch keeps the canonical form of memory. -/
theorem withFetchWord_memory_wf {s : State} (hs : Memory.wf s.cfg s.mem) (nbits w : Nat) :
    Memory.wf (s.withFetchWord nbits w).cfg (s.withFetchWord nbits w).mem := by
  show Memory.wf (writeBytes _ _ s).cfg (writeBytes _ _ s).mem
  rw [writeBytes_cfg]
  refine writeBytes_wf hs fun a ha => ?_
  simp only [List.mem_cons, List.not_mem_nil, or_false] at ha
  omega

end Sys2Proof.Machine
end

