-- ==== Sys2Proof/Laws/Run.lean ====
section
/-! SUPPORT. Runs of the machine: one more step at the front, and the induction every invariant of a run goes through. -/

namespace Sys2Proof.Machine

theorem run_zero (s : State) : Sys2Proof.core.run 0 s = .next s := by
  simp only [Host.Core.run]

theorem run_succ_of_next {s t : State} (k : Nat) (h : step s = .next t) :
    Sys2Proof.core.run (k + 1) s = Sys2Proof.core.run k t := by
  have e : Sys2Proof.core.step s = .next t := h
  simp only [Host.Core.run, e]

/-- What every step keeps, every run keeps. -/
theorem run_keeps {P : State → Prop} (hstep : ∀ s t, P s → step s = .next t → P t) (k : Nat) (s t : State) (hs : P s)
    (h : Sys2Proof.core.run k s = .next t) : P t := by
  induction k generalizing s with
  | zero =>
    rw [run_zero] at h
    cases h
    exact hs
  | succ k ih =>
    cases e : step s with
    | next u =>
      rw [run_succ_of_next k e] at h
      exact ih u (hstep s u hs e) h
    | fault f =>
      have e' : Sys2Proof.core.step s = .fault f := e
      simp only [Host.Core.run, e'] at h
      cases h
    | refused r =>
      have e' : Sys2Proof.core.step s = .refused r := e
      simp only [Host.Core.run, e'] at h
      cases h

end Sys2Proof.Machine
end

