-- ==== Sys2Proof/Tests/Slice0.lean ====
section
/-! SUPPORT. The model's own tests: the smoke tests of well-formedness, a decoding of every constructor, single steps with results
taken from spec/95_test_vectors.md, and for every statement with hypotheses a witness that meets them. -/

open Sys2Proof Sys2Proof.Machine

namespace Sys2Proof.Tests

/-! ## Helpers -/

/-- The reset state with no key pressed and random byte 0, as the vectors of 95_test_vectors.md start. -/
def quiet : State := { State.reset with inputs := ⟨0, 0, 0, 0⟩ }

/-- That state with the V registers given. -/
def startV (regs : List (Nibble × Byte)) : State := regs.foldl (fun s p => setV p.1 p.2 s) quiet

/-- A step answers a next state, and `p` holds of it. -/
def steps (s : State) (p : State → Bool) : Bool :=
  match step s with
  | .next t => p t
  | .fault _ => false
  | .refused _ => false

/-- The step that runs the word `w` from `s` answers a next state, and `p` holds of it. -/
def runs (s : State) (w : Nat) (p : State → Bool) : Bool := steps (s.withFetchWord 16 w) p

/-- `s` with ADDR_POLICY = FAULT. -/
def faulting (s : State) : State := { s with cfg := { s.cfg with addrPolicy := .fault } }

/-- `s` with KEY_WAIT_MODE = EDGE. -/
def edge (s : State) : State := { s with cfg := { s.cfg with keyWaitMode := .edge } }

/-- `s` with ADD_I_SETS_VF = true. -/
def settingVF (s : State) : State := { s with cfg := { s.cfg with addISetsVF := true } }

/-- `s` with the key levels given. -/
def pressing (keys : BitVec 16) (s : State) : State := { s with inputs := { s.inputs with keys := keys } }

/-- A state halted by an error. -/
def haltedState : State := raise .invalidOpcode 0x0000 { quiet with dt := 3, st := 4 }

/-- A state that waits for a key in LD V5,K at 0x200. -/
def waiting : State := { quiet.withFetchWord 16 0xF50A with run := .awaitKey 0x5 }

/-! ## Well-formedness: an ill-formed term for each check -/

theorem test_config_hardware : hardwareConfig.wellFormed = true := by decide

theorem test_config_font_not_reserved : { hardwareConfig with fontBase := 0x1B1 }.wellFormed = false := by decide

theorem test_config_font_highest : { hardwareConfig with fontBase := 0x1B0 }.wellFormed = true := by decide

theorem test_config_glyph_overflow : { hardwareConfig with fontBase := 0xFF00 }.wellFormed = false := by decide

theorem test_config_font_size : { hardwareConfig with fontData := [0xF0] }.wellFormed = false := by decide

theorem test_config_no_columns : { hardwareConfig with fbW := 0 }.wellFormed = false := by decide

theorem test_config_no_rows : { hardwareConfig with fbH := 0 }.wellFormed = false := by decide

/-- I5: a framebuffer of size zero is a refuse. -/
theorem test_step_refuses_config :
    step { quiet with cfg := { hardwareConfig with fbW := 0 } } = .refused .invalidConfiguration := rfl

/-- DEC-1, DEC-4 to DEC-7. -/
theorem test_invalid_family0 :
    ([0x0000, 0x00E1, 0x01E0, 0x0123, 0x0FFF] : List Word).all (fun w => !wordWellFormed w && decode w == .invalid w) = true := by decide

/-- DEC-9, DEC-11 to DEC-13, DEC-16. -/
theorem test_invalid_families_5_8_9 :
    ([0x5001, 0x512F, 0x8008, 0x800F, 0x9121] : List Word).all (fun w => !wordWellFormed w && decode w == .invalid w) = true := by decide

/-- DEC-21, DEC-23, DEC-26, DEC-30, DEC-31. -/
theorem test_invalid_families_E_F :
    ([0xE1A0, 0xF00B, 0xF030, 0xF066, 0xFFFF] : List Word).all (fun w => !wordWellFormed w && decode w == .invalid w) = true := by decide

/-! ## Decoding: every constructor, from a word written out by R58 -/

/-- R58 rows 1 to 4 and 20, 21; DEC-2, DEC-3, DEC-8, DEC-17. -/
theorem test_decode_fixed_and_nnn :
    decode 0x00E0 = .instr .cls ∧ decode 0x00EE = .instr .ret ∧ decode 0x1000 = .instr (.jpAddr 0x000) ∧
    decode 0x2ABC = .instr (.callAddr 0xABC) ∧ decode 0xA123 = .instr (.ldIAddr 0x123) ∧
    decode 0xB123 = .instr (.jpV0Addr 0x123) := by decide

/-- R58 rows 5, 6, 9, 10 and 22. -/
theorem test_decode_xkk :
    decode 0x3342 = .instr (.seVxKk 0x3 0x42) ∧ decode 0x4E42 = .instr (.sneVxKk 0xE 0x42) ∧
    decode 0x6A05 = .instr (.ldVxKk 0xA 0x05) ∧ decode 0x71FE = .instr (.addVxKk 0x1 0xFE) ∧
    decode 0xC10F = .instr (.rndVxKk 0x1 0x0F) := by decide

/-- R58 rows 7, 8 and 11 to 19; DEC-10, DEC-14, DEC-15. -/
theorem test_decode_xys :
    decode 0x5120 = .instr (.seVxVy 0x1 0x2) ∧ decode 0x9120 = .instr (.sneVxVy 0x1 0x2) ∧
    decode 0x8120 = .instr (.ldVxVy 0x1 0x2) ∧ decode 0x8121 = .instr (.orVxVy 0x1 0x2) ∧
    decode 0x8122 = .instr (.andVxVy 0x1 0x2) ∧ decode 0x8123 = .instr (.xorVxVy 0x1 0x2) ∧
    decode 0x8124 = .instr (.addVxVy 0x1 0x2) ∧ decode 0x8125 = .instr (.subVxVy 0x1 0x2) ∧
    decode 0x8127 = .instr (.subnVxVy 0x1 0x2) ∧ decode 0x8FF6 = .instr (.shrVx 0xF 0xF) ∧
    decode 0x812E = .instr (.shlVx 0x1 0x2) := by decide

/-- R58 row 23. -/
theorem test_decode_xyn : decode 0xD125 = .instr (.drwVxVyN 0x1 0x2 0x5) := by decide

/-- R58 rows 24 to 34; DEC-18 to DEC-20, DEC-22, DEC-24, DEC-25, DEC-27 to DEC-29. -/
theorem test_decode_xss :
    decode 0xE19E = .instr (.skpVx 0x1) ∧ decode 0xE0A1 = .instr (.sknpVx 0x0) ∧ decode 0xF307 = .instr (.ldVxDT 0x3) ∧
    decode 0xF315 = .instr (.ldDTVx 0x3) ∧ decode 0xF418 = .instr (.ldSTVx 0x4) ∧ decode 0xFA1E = .instr (.addIVx 0xA) ∧
    decode 0xF029 = .instr (.ldFVx 0x0) ∧ decode 0xF333 = .instr (.ldBVx 0x3) ∧ decode 0xF255 = .instr (.ldMemIVx 0x2) ∧
    decode 0xF265 = .instr (.ldVxMemI 0x2) ∧ decode 0xF50A = .instr (.ldVxK 0x5) := by decide

/-- R40: the byte at the lower address is the high byte. -/
theorem test_decode_bytes : decodeBytes [0x6A, 0x05, 0xFA] = .instr (.ldVxKk 0xA 0x05) [0xFA] := by decide

theorem test_decode_truncated : decodeBytes [0x6A] = .truncated := by decide

theorem test_decode_table_word : decodeTableWord 16 0xF50A = some (.ldVxK 0x5) ∧ decodeTableWord 16 0x5001 = none := by decide

/-! ## Control flow: the vectors of 95_test_vectors.md section 2.2 -/

/-- CF-1. -/
theorem test_jp : runs State.reset 0x1ABC (fun t => t.pc == 0x0ABC) = true := by decide

/-- CF-22: at PC 0x10FE a CALL pushes the unreduced PC + 2. -/
theorem test_call_pushes : runs { quiet with pc := 0x10FE } 0x2300
    (fun t => t.pc == 0x0300 && t.sp == 1 && t.stack[0] == 0x1100) = true := by decide

/-- CF-5. -/
theorem test_call_overflows : runs { quiet with sp := 16 } 0x2400
    (fun t => t.pc == 0x0200 && t.run == .halted && t.sp == 16 && t.err == ⟨.stackOverflow, 0x200, 0x2400⟩) = true := by
  decide

/-- CF-6. -/
theorem test_ret_pops : runs { quiet with sp := 1, stack := quiet.stack.set 0 0x0206 } 0x00EE
    (fun t => t.pc == 0x0206 && t.sp == 0) = true := by decide

/-- CF-7. -/
theorem test_ret_underflows : runs quiet 0x00EE
    (fun t => t.pc == 0x0200 && t.run == .halted && t.err == ⟨.stackUnderflow, 0x200, 0x00EE⟩) = true := by decide

/-- CF-9. -/
theorem test_se_kk_not_equal : runs (startV [(0x3, 0x41)]) 0x3342 (fun t => t.pc == 0x0202) = true := by decide

/-- CF-21: a skip from 0xFFC goes to 0x1000. -/
theorem test_se_kk_equal : runs { startV [(0x3, 0x42)] with pc := 0x0FFC } 0x3342 (fun t => t.pc == 0x1000) = true := by decide

/-- CF-10. -/
theorem test_sne_kk_equal : runs (startV [(0x3, 0x42)]) 0x4342 (fun t => t.pc == 0x0202) = true := by decide

/-- CF-11. -/
theorem test_sne_kk_not_equal : runs (startV [(0x3, 0x41)]) 0x4342 (fun t => t.pc == 0x0204) = true := by decide

/-- CF-12. -/
theorem test_se_reg_equal : runs (startV [(0x1, 0x07), (0x2, 0x07)]) 0x5120 (fun t => t.pc == 0x0204) = true := by decide

/-- CF-13. -/
theorem test_se_reg_not_equal : runs (startV [(0x1, 0x07), (0x2, 0x08)]) 0x5120 (fun t => t.pc == 0x0202) = true := by decide

/-- CF-14. -/
theorem test_sne_reg_equal : runs (startV [(0x1, 0x07), (0x2, 0x07)]) 0x9120 (fun t => t.pc == 0x0202) = true := by decide

/-- CF-15. -/
theorem test_sne_reg_not_equal : runs (startV [(0x1, 0x07), (0x2, 0x08)]) 0x9120 (fun t => t.pc == 0x0204) = true := by decide

/-- CF-18. -/
theorem test_jp_v0 : runs (startV [(0x0, 0xFF)]) 0xBFFF (fun t => t.pc == 0x10FE) = true := by decide

/-! ## Arithmetic and logic: section 2.3 -/

/-- ALU-1. -/
theorem test_ld_kk : runs State.reset 0x6A05 (fun t => getV t 0xA == 0x05 && t.pc == 0x0202) = true := by decide

/-- ALU-3. -/
theorem test_add_kk_wraps : runs (startV [(0x1, 0xFF)]) 0x7101 (fun t => getV t 0x1 == 0x00 && getV t 0xF == 0x00) = true := by
  decide

/-- ALU-5. -/
theorem test_add_kk_to_VF : runs (startV [(0xF, 0x01)]) 0x7F01 (fun t => getV t 0xF == 0x02) = true := by decide

/-- ALU-7. -/
theorem test_ld_reg : runs (startV [(0x1, 0x0F), (0xF, 0x77)]) 0x8F10 (fun t => getV t 0xF == 0x0F) = true := by decide

/-- ALU-8. -/
theorem test_or : runs (startV [(0x1, 0xF0), (0x2, 0x0F), (0xF, 0x55)]) 0x8121
    (fun t => getV t 0x1 == 0xFF && getV t 0xF == 0x55) = true := by decide

/-- ALU-9. -/
theorem test_and : runs (startV [(0x1, 0xF0), (0x2, 0x3C), (0xF, 0x55)]) 0x8122
    (fun t => getV t 0x1 == 0x30 && getV t 0xF == 0x55) = true := by decide

/-- ALU-10. -/
theorem test_xor : runs (startV [(0x1, 0xF0), (0x2, 0x3C), (0xF, 0x55)]) 0x8123
    (fun t => getV t 0x1 == 0xCC && getV t 0xF == 0x55) = true := by decide

/-- ALU-14. -/
theorem test_add_carry : runs (startV [(0x1, 0x80), (0x2, 0x80)]) 0x8124
    (fun t => getV t 0x1 == 0x00 && getV t 0xF == 0x01) = true := by decide

/-- ALU-18: with y = F the old VF is the addend. -/
theorem test_add_reads_old_VF : runs (startV [(0x1, 0x10), (0xF, 0x20)]) 0x81F4
    (fun t => getV t 0x1 == 0x30 && getV t 0xF == 0x00) = true := by decide

/-- ALU-20. -/
theorem test_sub_borrow : runs (startV [(0x1, 0x05), (0x2, 0x07), (0xF, 0x01)]) 0x8125
    (fun t => getV t 0x1 == 0xFE && getV t 0xF == 0x00) = true := by decide

/-- ALU-24: with x = F the flag wins. -/
theorem test_sub_flag_wins : runs (startV [(0xF, 0x05), (0x1, 0x03)]) 0x8F15 (fun t => getV t 0xF == 0x01) = true := by decide

/-- ALU-26. -/
theorem test_subn : runs (startV [(0x1, 0x05), (0x2, 0x07)]) 0x8127
    (fun t => getV t 0x1 == 0x02 && getV t 0xF == 0x01) = true := by decide

/-- ALU-28: equal operands are no borrow. -/
theorem test_subn_equal : runs (startV [(0x1, 0x07), (0x2, 0x07)]) 0x8127
    (fun t => getV t 0x1 == 0x00 && getV t 0xF == 0x01) = true := by decide

/-- ALU-33: y is ignored. -/
theorem test_shr : runs (startV [(0x1, 0xFF), (0x2, 0x00)]) 0x8126
    (fun t => getV t 0x1 == 0x7F && getV t 0xF == 0x01) = true := by decide

/-- ALU-35. -/
theorem test_shr_VF : runs (startV [(0xF, 0x02)]) 0x8F06 (fun t => getV t 0xF == 0x00) = true := by decide

/-- ALU-38: y is ignored. -/
theorem test_shl : runs (startV [(0x1, 0xFF)]) 0x81FE (fun t => getV t 0x1 == 0xFE && getV t 0xF == 0x01) = true := by decide

/-- ALU-39. -/
theorem test_shl_VF : runs (startV [(0xF, 0x80)]) 0x8F0E (fun t => getV t 0xF == 0x01) = true := by decide

/-- ALU-41. -/
theorem test_rnd : runs (quiet.withRnd 0xA7) 0xC10F (fun t => getV t 0x1 == 0x07) = true := by decide

/-- ALU-44. -/
theorem test_rnd_VF : runs ((startV [(0xF, 0x01)]).withRnd 0xA7) 0xCF80 (fun t => getV t 0xF == 0x80) = true := by decide

/-- R28, D23: RND as the first instruction from State.reset sees the free byte of the first input record. -/
theorem test_rnd_first_step_is_free :
    ∃ t, step (State.reset.withFetchWord 16 0xC10F) = .next t ∧ getV t 0x1 = Config.freeRnd 0 &&& 0x0F := ⟨_, rfl, rfl⟩

/-! ## Index register and memory: section 2.4 -/

/-- IDX-1. -/
theorem test_ld_i : runs quiet 0xA123 (fun t => t.i == 0x123 && t.pc == 0x0202) = true := by decide

/-- IDX-3. -/
theorem test_add_i_wraps : runs { startV [(0x1, 0x20), (0xF, 0x55)] with i := 0xFF0 } 0xF11E
    (fun t => t.i == 0x010 && getV t 0xF == 0x55) = true := by decide

/-- R90, with ADD_I_SETS_VF = true: 0xFFF is no overflow. -/
theorem test_add_i_sets_VF : runs (settingVF { startV [(0x1, 0x01), (0xF, 0x55)] with i := 0xFFE }) 0xF11E
    (fun t => t.i == 0xFFF && getV t 0xF == 0x00) = true := by decide

/-- IDX-8: unmasked. -/
theorem test_ld_f : runs (startV [(0x0, 0xFF)]) 0xF029 (fun t => t.i == 0x54B) = true := by decide

/-- IDX-15. -/
theorem test_ld_b_wraps : runs { startV [(0x3, 0x7B)] with i := 0xFFE } 0xF333
    (fun t => readByte t 0xFFE == 0x01 && readByte t 0xFFF == 0x02 && readByte t 0x000 == 0x03 && t.i == 0xFFE) = true := by
  decide

/-- IDX-22. -/
theorem test_ld_b_faults : runs (faulting { startV [(0x3, 0x7B)] with i := 0xFFE }) 0xF333
    (fun t => t.pc == 0x0200 && t.err == ⟨.outOfBoundsAddress, 0x200, 0xF333⟩ && readByte t 0xFFE == 0x00) = true := by decide

/-- IDX-18. -/
theorem test_store_block_wraps : runs { startV [(0x0, 0x11), (0xF, 0xFF)] with i := 0xFFF } 0xFF55
    (fun t => readByte t 0xFFF == 0x11 && readByte t 0x00E == 0xFF && readByte t 0x00F == 0x00 && t.i == 0xFFF) = true := by
  decide

/-- IDX-23. -/
theorem test_store_block_faults : runs (faulting { startV [(0x0, 0x05)] with i := 0xFFF }) 0xF155
    (fun t => t.run == .halted && t.err == ⟨.outOfBoundsAddress, 0x200, 0xF155⟩ && readByte t 0xFFF == 0x00) = true := by
  decide

/-- IDX-20. -/
theorem test_load_block_wraps :
    runs { writeBytes [0xFFF, 0x000] [0x01, 0x02] (startV [(0x2, 0x99)]) with i := 0xFFF } 0xF165
    (fun t => getV t 0x0 == 0x01 && getV t 0x1 == 0x02 && getV t 0x2 == 0x99) = true := by decide

/-- IDX-24: a load that stays below 4096 executes under FAULT. -/
theorem test_load_block_last_byte : runs (faulting { startV [(0x0, 0x77)] with i := 0xFFF }) 0xF065
    (fun t => getV t 0x0 == 0x00 && t.pc == 0x0202 && t.run == .running) = true := by decide

/-! ## Framebuffer: section 2.5 -/

/-- DRW-2. -/
theorem test_cls : runs { quiet with fb := [(0, 0), (63, 31)] } 0x00E0
    (fun t => t.fb == [] && t.pc == 0x0202 && t.request == .fbClear) = true := by decide

/-- DRW-4. -/
theorem test_drw_collides : runs { quiet with i := 0x050, fb := [(0, 0)] } 0xD011
    (fun t => t.fb == [(1, 0), (2, 0), (3, 0)] && getV t 0xF == 0x01) = true := by decide

/-- DRW-5: both axes wrap. -/
theorem test_drw_wraps :
    runs { writeBytes [0x300, 0x301] [0xFF, 0x81] (startV [(0x1, 0x3E), (0x2, 0x1E)]) with i := 0x300 } 0xD122
    (fun t => t.fb == [(0, 30), (1, 30), (2, 30), (3, 30), (4, 30), (5, 30), (5, 31), (62, 30), (62, 31), (63, 30)] &&
      getV t 0xF == 0x00) = true := by decide

/-! ## Keypad, timers, key wait: section 2.6 -/

/-- KT-2. -/
theorem test_skp_other_key : runs (pressing 0x0010 (startV [(0x1, 0x05)])) 0xE19E (fun t => t.pc == 0x0202) = true := by decide

/-- KT-3: the low nibble names the key. -/
theorem test_skp_low_nibble : runs (pressing 0x0008 (startV [(0x1, 0x13)])) 0xE19E (fun t => t.pc == 0x0204) = true := by decide

/-- KT-4. -/
theorem test_sknp_not_pressed : runs (startV [(0x1, 0x05)]) 0xE1A1 (fun t => t.pc == 0x0204) = true := by decide

/-- KT-5. -/
theorem test_sknp_pressed : runs (pressing 0x0020 (startV [(0x1, 0x05)])) 0xE1A1 (fun t => t.pc == 0x0202) = true := by decide

/-- KT-6. -/
theorem test_ld_from_dt : runs { quiet with dt := 60 } 0xF307 (fun t => getV t 0x3 == 0x3C) = true := by decide

/-- KT-7. -/
theorem test_ld_dt : runs (startV [(0x3, 0x3C)]) 0xF315 (fun t => t.dt == 60 && t.st == 0) = true := by decide

/-- KT-9. -/
theorem test_ld_st : runs (startV [(0x4, 0x02)]) 0xF418 (fun t => t.st == 2 && t.dt == 0 && soundActive t) = true := by decide

/-- KT-10. -/
theorem test_ld_k_waits : runs quiet 0xF50A (fun t => t.pc == 0x0200 && t.run == .awaitKey 0x5) = true := by decide

/-- KT-11. -/
theorem test_ld_k_resolves : runs (pressing 0x0208 quiet) 0xF50A
    (fun t => getV t 0x5 == 0x03 && t.pc == 0x0202 && t.run == .running) = true := by decide

/-- R103 with R27: from State.reset the keys of the first step are free, and LD V5,K completes whatever they are. -/
theorem test_ld_k_first_step : runs State.reset 0xF50A (fun _ => true) = true := by decide

/-- KT-12, KT-13. -/
theorem test_poll_level : steps waiting (fun t => t.pc == 0x0200 && t.run == .awaitKey 0x5) = true ∧
    steps (pressing 0x0800 waiting)
      (fun t => getV t 0x5 == 0x0B && t.pc == 0x0202 && t.run == .running && t.request == .keyDone 0x5 0xB) = true := by decide

/-- KT-15, KT-16. -/
theorem test_poll_edge :
    steps (edge (pressing 0x0004 { waiting with keyPrev := 0x0004 })) (fun t => t.pc == 0x0200 && t.run == .awaitKey 0x5) = true ∧
    steps (edge (pressing 0x0084 { waiting with keyPrev := 0x0004 }))
      (fun t => getV t 0x5 == 0x07 && t.pc == 0x0202 && t.keyPrev == 0x0084 && t.run == .running) = true := by decide

/-! ## Ticks, fetch, halt and reset: sections 2.7 and 2.8 -/

/-- TK-3, TK-6. -/
theorem test_tick : (tick { quiet with dt := 5, st := 2 }).dt = 4 ∧ (tick { quiet with dt := 5, st := 2 }).st = 1 ∧
    tick haltedState = haltedState ∧ soundActive haltedState = true := by decide

/-- ERR-1. -/
theorem test_fetch_faults : steps { faulting (writeByte 0xFFF 0x12 quiet) with pc := 0x0FFF }
    (fun t => t.run == .halted && t.err == ⟨.outOfBoundsAddress, 0xFFF, 0x0000⟩ && t.pc == 0x0FFF) = true := by decide

/-- ERR-4. -/
theorem test_fetch_wraps : steps { writeBytes [0x000, 0x001] [0x6A, 0x07] quiet with pc := 0x1000 }
    (fun t => getV t 0xA == 0x07 && t.pc == 0x1002) = true := by decide

/-- E9. -/
theorem test_invalid_halts : runs quiet 0x5001
    (fun t => t.run == .halted && t.err == ⟨.invalidOpcode, 0x200, 0x5001⟩ && t.pc == 0x0200) = true := by decide

/-- ERR-6, ERR-8. -/
theorem test_halted_until_reset :
    steps (pressing 0xFFFF haltedState) (fun t => t.run == .halted && t.err == haltedState.err && t.dt == 3) = true ∧
    (assertReset haltedState).run = .running ∧ (assertReset haltedState).err = .clear ∧ (assertReset haltedState).dt = 0 := by
  decide

/-- The ticks given before a step come first (R115): an LD V3,DT sees them. -/
theorem test_ticks_before_step : runs { quiet with dt := 2, inputs := ⟨0, 0, 0, 1⟩ } 0xF307
    (fun t => getV t 0x3 == 0x01 && t.dt == 1) = true := by decide

/-! ## Witnesses: the hypotheses of each statement that has any, met by a concrete state and operands -/

/-- A block of `n` bytes at I, under FAULT. -/
def faultingAt (i : Word) : State := faulting { startV [(0x0, 0x11), (0x1, 0x22)] with i := i }

theorem witness_EncodeOfDecodedIsWord : decode 0xD125 = .instr (.drwVxVyN 0x1 0x2 0x5) := by decide

theorem witness_WordDecodesIffOneRowSelectsIt :
    decode 0x812E = .instr (.shlVx 0x1 0x2) ∧
    (⟨0xF00F, 0x800E⟩ : OpRow) ∈ opcodeMap ∧ (0x812E : Word) &&& 0xF00F = 0x800E := by decide

/-- The boundaries of each family's invalid words. -/
theorem witness_InvalidWordsByFamily :
    decode 0x0000 = .invalid 0x0000 ∧ decode 0x5001 = .invalid 0x5001 ∧ decode 0x8008 = .invalid 0x8008 ∧
    decode 0x9FFF = .invalid 0x9FFF ∧ decode 0xE0A2 = .invalid 0xE0A2 ∧ decode 0xFFFF = .invalid 0xFFFF := by decide

theorem witness_StepRunsDecodedInstruction :
    (quiet.withFetchWord 16 0x6A05).cfg.wellFormed = true ∧ (quiet.withFetchWord 16 0x6A05).run = .running ∧
    fetch (quiet.withFetchWord 16 0x6A05) = some 0x6A05 ∧ decode 0x6A05 = .instr (.ldVxKk 0xA 0x05) := by decide

/-- An awaiting state, and the five ways to break R6 and R36. -/
theorem witness_StepIsCoreStepOrRefusal :
    waiting.cfg.wellFormed = true ∧ waiting.run = .awaitKey 0x5 ∧
    ¬ ({ hardwareConfig with fontBase := 0x1B1 }.fontBase + 80 ≤ 0x200) ∧
    ¬ ({ hardwareConfig with fontBase := 0xFF00 }.fontBase + 255 * 5 < 65536) ∧
    ¬ ({ hardwareConfig with fontData := [0xF0] }.fontData.length = 80) ∧
    ¬ (1 ≤ { hardwareConfig with fbW := 0 }.fbW) ∧ ¬ (1 ≤ { hardwareConfig with fbH := 0 }.fbH) := by decide

theorem witness_StepSurroundingsAreTicksAndInputs : quiet.run ≠ .halted ∧ haltedState.run = .halted := by decide

/-- The two sides of the boundary under FAULT, and WRAP at the last address. -/
theorem witness_FetchIsBigEndian :
    { quiet with pc := 0xFFFF }.cfg.addrPolicy = .wrap ∧
    { faulting quiet with pc := 0x0FFE }.pc.toNat + 1 < 4096 ∧
    { faulting quiet with pc := 0x0FFF }.cfg.addrPolicy = .fault ∧
    4096 ≤ { faulting quiet with pc := 0x0FFF }.pc.toNat + 1 := by decide

theorem witness_InvalidWordHaltsPrecisely :
    (quiet.withFetchWord 16 0x5001).cfg.wellFormed = true ∧ (quiet.withFetchWord 16 0x5001).run = .running ∧
    fetch (quiet.withFetchWord 16 0x5001) = some 0x5001 ∧ decode 0x5001 = .invalid 0x5001 := by decide

theorem witness_FetchOutOfBoundsHalts :
    { faulting quiet with pc := 0x0FFF }.cfg.wellFormed = true ∧ { faulting quiet with pc := 0x0FFF }.run = .running ∧
    { faulting quiet with pc := 0x0FFF }.cfg.addrPolicy = .fault ∧
    4096 ≤ { faulting quiet with pc := 0x0FFF }.pc.toNat + 1 := by decide

theorem witness_HaltedStepAndTickChangeNothing : haltedState.cfg.wellFormed = true ∧ haltedState.run = .halted := by decide

theorem witness_HaltedIsAbsorbing : haltedState.cfg.wellFormed = true ∧ haltedState.run = .halted := by decide

/-- Each timer at 0 and just above, and HALTED. -/
theorem witness_TickDecrementsTimers :
    { quiet with dt := 1 }.run ≠ .halted ∧ 0 < { quiet with dt := 1 }.dt.toNat ∧
    { quiet with dt := 1 }.st.toNat = 0 ∧ 0 < { quiet with st := 0xFF }.st.toNat ∧
    { quiet with st := 0xFF }.dt.toNat = 0 ∧ haltedState.run = .halted := by decide

theorem witness_TickCommutesWithNonTimerInstructions :
    (∀ x, Instr.ret ≠ .ldVxDT x ∧ Instr.ret ≠ .ldDTVx x ∧ Instr.ret ≠ .ldSTVx x) ∧
    { quiet with sp := 1, dt := 1 }.run ≠ .halted ∧
    ∃ t, exec .ret { quiet with sp := 1, dt := 1 } = .next t ∧ t.run ≠ .halted :=
  ⟨by decide, by decide, _, rfl, by decide⟩

theorem witness_PollStoresKeyOrRetries_unresolved :
    waiting.run = .awaitKey 0x5 ∧ waiting.cfg.keyWaitMode = .level ∧ waiting.inputs.keys = 0 ∧
    (edge (pressing 0x0004 { waiting with keyPrev := 0x0004 })).run = .awaitKey 0x5 ∧
    (edge (pressing 0x0004 { waiting with keyPrev := 0x0004 })).cfg.keyWaitMode = .edge ∧
    (edge (pressing 0x0004 { waiting with keyPrev := 0x0004 })).inputs.keys &&&
      ~~~(edge (pressing 0x0004 { waiting with keyPrev := 0x0004 })).keyPrev = 0 := by decide

theorem witness_PollStoresKeyOrRetries_level :
    (pressing 0x8000 waiting).run = .awaitKey 0x5 ∧ (pressing 0x8000 waiting).cfg.keyWaitMode = .level ∧
    (pressing 0x8000 waiting).cfg.keySelect = .lowest ∧ (0x8000 : BitVec 16) = (pressing 0x8000 waiting).inputs.keys ∧
    (0x8000 : BitVec 16) ≠ 0 := by decide

theorem witness_PollStoresKeyOrRetries_edge :
    (edge (pressing 0x0005 { waiting with keyPrev := 0x0004 })).run = .awaitKey 0x5 ∧
    (edge (pressing 0x0005 { waiting with keyPrev := 0x0004 })).cfg.keyWaitMode = .edge ∧
    (0x0001 : BitVec 16) = (edge (pressing 0x0005 { waiting with keyPrev := 0x0004 })).inputs.keys &&&
      ~~~(edge (pressing 0x0005 { waiting with keyPrev := 0x0004 })).keyPrev ∧
    (0x0001 : BitVec 16) ≠ 0 := by decide

theorem witness_SelectChoosesPressedKey :
    (0x8001 : BitVec 16) ≠ 0 ∧ hardwareConfig.keySelect = .lowest ∧ { hardwareConfig with keySelect := .any }.keySelect = .any ∧
    (0x8001 : BitVec 16).getLsbD (0xF : Nibble).toNat = true := by decide

theorem witness_ResolvingPollEqualsReexecution :
    (pressing 0x0001 waiting).run = .awaitKey 0x5 ∧ (pressing 0x0001 waiting).cfg.keyWaitMode = .level ∧
    (pressing 0x0001 waiting).inputs.keys ≠ 0 := by decide

theorem witness_KeyWaitResolvesOrBlocks :
    (pressing 0x8000 quiet).cfg.keyWaitMode = .level ∧ (pressing 0x8000 quiet).inputs.keys ≠ 0 ∧
    (pressing 0x8000 quiet).cfg.keySelect = .lowest ∧ quiet.inputs.keys = 0 ∧
    (edge quiet).cfg.keyWaitMode = .edge := by decide

/-- A state that waits for a key has the invariant. -/
theorem waiting_inv : waiting.Inv where
  config := by decide
  memory := by decide
  framebuffer := by decide
  stackPointer := by decide
  index := by decide
  noError := by decide
  haltedError := by decide
  wrapNeverOutOfBounds := by decide
  levelNoKeyPrev := by decide
  waiting := fun x h => by cases h; decide

theorem witness_StepKeepsInvariant : waiting.Inv ∧ ∃ t, step waiting = .next t := ⟨waiting_inv, _, rfl⟩

theorem witness_InvariantStatesAlwaysStep : waiting.Inv := waiting_inv

/-- A halted state has the invariant. -/
theorem haltedState_inv : haltedState.Inv where
  config := by decide
  memory := by decide
  framebuffer := by decide
  stackPointer := by decide
  index := by decide
  noError := by decide
  haltedError := by decide
  wrapNeverOutOfBounds := by decide
  levelNoKeyPrev := by decide
  waiting := fun x h => by cases h

theorem witness_ResetHasInvariant :
    haltedState.cfg.wellFormed = true ∧ haltedState.Inv ∧ (∀ x, haltedState.run ≠ .awaitKey x) ∧
    ∃ t, loadImage [0x6A, 0x05] haltedState = .next t := ⟨by decide, haltedState_inv, by decide, _, rfl⟩

theorem witness_ResetInputRestoresResetState : haltedState.cfg.wellFormed = true ∧ 79 < haltedState.cfg.fontData.length := by
  decide

/-- The largest image that fits, and the smallest that does not. -/
theorem witness_LoaderWritesImageAt200 :
    (List.replicate 3584 (0xFF : Byte)).length ≤ 3584 ∧ 3583 < (List.replicate 3584 (0xFF : Byte)).length ∧
    3584 < (List.replicate 3585 (0xFF : Byte)).length := by
  simp only [List.length_replicate]; decide

theorem witness_ErrorsArePrecise :
    quiet.run ≠ .halted ∧ (∃ t, exec .ret quiet = .next t ∧ t.run = .halted) ∧
    ∃ t, stepCore quiet = .next t ∧ t.run = .halted := ⟨by decide, ⟨_, rfl, rfl⟩, _, rfl, rfl⟩

/-- Each row of R109 at its boundary. -/
theorem witness_WhatRaisesWhichError :
    fetch quiet = some 0x0000 ∧ quiet.run ≠ .halted ∧ { quiet with sp := 16 }.sp = 16 ∧ quiet.sp = 0 ∧
    (faultingAt 0x0FFF).run ≠ .halted ∧ (faultingAt 0x0FFF).cfg.addrPolicy = .fault ∧
    0 < (2 : Nibble).toNat ∧ 4096 ≤ (faultingAt 0x0FFF).i.toNat + (2 : Nibble).toNat - 1 ∧
    4096 ≤ (faultingAt 0x0FFE).i.toNat + 2 ∧ 4096 ≤ (faultingAt 0x0FFF).i.toNat + (1 : Nibble).toNat := by decide

theorem witness_EachStateHasItsOwnWriters :
    (∃ t, exec (.ldVxKk 0xA 0x05) quiet = .next t) ∧ writesReg quiet.cfg (.ldVxKk 0xA 0x05) 0xF = false ∧
    writesReg quiet.cfg (.ldVxMemI 0xE) 0xF = false ∧ writesReg quiet.cfg (.addIVx 0xF) 0xF = false ∧
    setsPC (.ldVxKk 0xA 0x05) = false ∧ (∀ nnn, Instr.ldVxKk 0xA 0x05 ≠ .callAddr nnn ∧ Instr.ldVxKk 0xA 0x05 ≠ .ldIAddr nnn) ∧
    Instr.ldVxKk 0xA 0x05 ≠ .ret ∧ Instr.ldVxKk 0xA 0x05 ≠ .cls ∧
    (∀ x, Instr.ldVxKk 0xA 0x05 ≠ .addIVx x ∧ Instr.ldVxKk 0xA 0x05 ≠ .ldFVx x ∧ Instr.ldVxKk 0xA 0x05 ≠ .ldDTVx x ∧
      Instr.ldVxKk 0xA 0x05 ≠ .ldSTVx x ∧ Instr.ldVxKk 0xA 0x05 ≠ .ldVxK x ∧ Instr.ldVxKk 0xA 0x05 ≠ .ldBVx x ∧
      Instr.ldVxKk 0xA 0x05 ≠ .ldMemIVx x) ∧
    ∀ x y n, Instr.ldVxKk 0xA 0x05 ≠ .drwVxVyN x y n :=
  ⟨⟨_, rfl⟩, by decide, by decide, by decide, by decide, by simp, by simp, by simp, by simp, by simp⟩

theorem witness_VFIsWrittenAsFlagOrDestination :
    quiet.run ≠ .halted ∧ (∃ t, exec (.jpAddr 0x200) quiet = .next t) ∧
    writesFlag quiet.cfg (.jpAddr 0x200) = false ∧ writesFlag quiet.cfg (.addIVx 0x1) = false ∧
    writesFlag (settingVF quiet).cfg (.addIVx 0x1) = true ∧
    ∃ t, exec (.addVxVy 0xF 0xF) quiet = .next t ∧ t.run ≠ .halted :=
  ⟨by decide, ⟨_, rfl⟩, by decide, by decide, by decide, _, rfl, by decide⟩

theorem witness_EachInstructionEmitsItsRequest :
    quiet.request = .none ∧ quiet.run = .running ∧
    (∃ t, exec .ret quiet = .next t ∧ t.run = .halted) ∧
    (∃ t, exec (.drwVxVyN 0x0 0x1 0x0) quiet = .next t ∧ t.run = .running) ∧
    (∃ t, exec (.ldVxK 0x5) quiet = .next t ∧ t.run = .awaitKey 0x5) ∧
    ∃ t, exec (.jpAddr 0x200) quiet = .next t ∧ t.run = .running :=
  ⟨by decide, by decide, ⟨_, rfl, rfl⟩, ⟨_, rfl, rfl⟩, ⟨_, rfl, rfl⟩, _, rfl, rfl⟩

theorem witness_RandomByteReachesOnlyRnd : ∀ x kk, Instr.cls ≠ .rndVxKk x kk := by decide

theorem witness_KeysReachOnlyKeyInstructions :
    ∀ x, Instr.cls ≠ .skpVx x ∧ Instr.cls ≠ .sknpVx x ∧ Instr.cls ≠ .ldVxK x := by decide

/-- The stack with one entry, full, and empty. -/
theorem witness_RetPopsOrUnderflows :
    { quiet with sp := 1 }.sp.toNat = 0 + 1 ∧ { quiet with sp := 16 }.sp.toNat = 15 + 1 ∧
    quiet.sp.toNat = 0 := by decide

/-- The last free entry, and the full stack. -/
theorem witness_CallPushesOrOverflows :
    { quiet with sp := 15 }.sp.toNat < 16 ∧ { quiet with sp := 16 }.sp.toNat = 16 := by decide

theorem witness_CallThenRetReturnsAfterCall : { quiet with sp := 15 }.sp.toNat < 16 := by decide

/-- Inside at the last address under FAULT, wrapping under WRAP, and outside by one. -/
theorem witness_LdBStoresDecimalDigits :
    ¬ BlockOutOfBounds (faultingAt 0x0FFD) 3 ∧ ¬ BlockOutOfBounds { quiet with i := 0x0FFE } 3 ∧
    BlockOutOfBounds (faultingAt 0x0FFE) 3 := by unfold BlockOutOfBounds; decide

/-- The addresses of the three digits, wrapping under WRAP. -/
theorem witness_LdBStoresDecimalDigits_addresses :
    addr hardwareConfig 0x0FFE = some 0xFFE ∧ addr hardwareConfig (0x0FFE + 1) = some 0xFFF ∧
    addr hardwareConfig (0x0FFE + 2) = some 0x000 ∧ ∀ k < 3, addr hardwareConfig (0x0FFE + k) ≠ some 0x001 := by decide

theorem witness_BlockStoreWritesV0ToVx :
    ¬ BlockOutOfBounds (faultingAt 0x0FF0) ((0xF : Nibble).toNat + 1) ∧
    ¬ BlockOutOfBounds { quiet with i := 0x0FFF } ((0xF : Nibble).toNat + 1) ∧
    BlockOutOfBounds (faultingAt 0x0FF1) ((0xF : Nibble).toNat + 1) := by unfold BlockOutOfBounds; decide

theorem witness_BlockLoadReadsV0ToVx :
    ¬ BlockOutOfBounds (faultingAt 0x0FFF) ((0x0 : Nibble).toNat + 1) ∧
    ¬ BlockOutOfBounds { quiet with i := 0x0FFF } ((0xF : Nibble).toNat + 1) ∧
    BlockOutOfBounds (faultingAt 0x0FFF) ((0x1 : Nibble).toNat + 1) := by unfold BlockOutOfBounds; decide

theorem witness_BlockStoreThenLoadRestores :
    ¬ BlockOutOfBounds (faultingAt 0x0FFE) ((0x1 : Nibble).toNat + 1) ∧ ∃ t, exec (.ldMemIVx 0x1) (faultingAt 0x0FFE) = .next t :=
  ⟨by unfold BlockOutOfBounds; decide, _, rfl⟩

/-- At PC 0x200: LD [I],V3 over the whole next word; LD B,V0 that reaches its low byte only; LD [I],V0 that reaches its high byte
only, under FAULT; and a word that no stored byte reaches. -/
theorem witness_StoreIsSeenByNextFetch :
    ¬ BlockOutOfBounds { quiet with i := 0x201 } (storedBytes { quiet with i := 0x201 } (.ldMemIVx 0x3)).length ∧
    (0x201 + 1) % 4096 = 0x202 % 4096 ∧ (0x201 + 2) % 4096 = (0x202 + 1) % 4096 ∧
    { quiet with i := 0x203 }.cfg.addrPolicy = .wrap ∧
    (storedBytes { quiet with i := 0x203 } (.ldBVx 0x0)).length = 3 ∧ (0x203 + 0) % 4096 = (0x202 + 1) % 4096 ∧
    (∀ k < 3, (0x203 + k) % 4096 ≠ 0x202 % 4096) ∧
    ¬ BlockOutOfBounds (faultingAt 0x202) (storedBytes (faultingAt 0x202) (.ldMemIVx 0x0)).length ∧
    (faultingAt 0x202).pc.toNat + 3 < 4096 ∧ (0x202 + 0) % 4096 = 0x202 % 4096 ∧
    (∀ k < 1, (0x202 + k) % 4096 ≠ (0x202 + 1) % 4096) := by unfold BlockOutOfBounds; decide

/-- A sprite that ends at the last address, an empty one beyond it, and one that passes it. -/
theorem witness_DrwRefinesItsPseudocode :
    ¬ BlockOutOfBounds (faultingAt 0x0FF1) (0xF : Nibble).toNat ∧ ¬ BlockOutOfBounds (faultingAt 0xFFFF) (0x0 : Nibble).toNat ∧
    BlockOutOfBounds (faultingAt 0x0FF2) (0xF : Nibble).toNat := by unfold BlockOutOfBounds; decide

theorem witness_DrwInvertsSpritePixelsAndReportsCollision :
    ¬ BlockOutOfBounds { quiet with i := 0x050 } (0xF : Nibble).toNat ∧
    8 ≤ { quiet with i := 0x050 }.cfg.fbW ∧ 15 ≤ { quiet with i := 0x050 }.cfg.fbH := by
  unfold BlockOutOfBounds; decide

/-- DRW V0,V1,1 of glyph 0 over a lit pixel: V0 and V1 are as before. -/
theorem witness_DrwTwiceRestoresPixels :
    ¬ BlockOutOfBounds { quiet with i := 0x050, fb := [(0, 0)] } (0x1 : Nibble).toNat ∧
    ∃ t, exec (.drwVxVyN 0x0 0x1 0x1) { quiet with i := 0x050, fb := [(0, 0)] } = .next t ∧
      getV t 0x0 = getV { quiet with i := 0x050, fb := [(0, 0)] } 0x0 ∧
      getV t 0x1 = getV { quiet with i := 0x050, fb := [(0, 0)] } 0x1 :=
  ⟨by unfold BlockOutOfBounds; decide, _, rfl, by decide, by decide⟩

/-- `r = x` and `r ≠ x`, with VF the destination and not. -/
theorem witness_register_operands : (0xF : Nibble) = 0xF ∧ (0x1 : Nibble) ≠ 0xF ∧ (0x1 : Nibble) ≠ 0x2 := by decide

theorem witness_AddIndexWrapsAt4096 : quiet.cfg.addISetsVF = false ∧ (settingVF quiet).cfg.addISetsVF = true := by
  decide

end Sys2Proof.Tests
end

namespace Sys2Proof

/-! ## The word of a decoded instruction -/

/-- A word is its NNN fields put together again, with the value `op` is known to have (R52). -/
theorem fmtNNN_of_fields {w : Word} {op : Nibble} (h : opField w = op) : fmtNNN op (nnnField w) = w :=
  h ▸ fmtNNN_fields w

/-- The same for the XKK fields. -/
theorem fmtXKK_of_fields {w : Word} {op : Nibble} {kk : Byte} (h : opField w = op) (hk : kkField w = kk) :
    fmtXKK op (xField w) kk = w :=
  h ▸ hk ▸ fmtXKK_fields w

/-- The same for the XYN fields. -/
theorem fmtXYN_of_fields {w : Word} {op n : Nibble} (h : opField w = op) (hn : nField w = n) :
    fmtXYN op (xField w) (yField w) n = w :=
  h ▸ hn ▸ fmtXYN_fields w

/-- Decoding loses no bit: a word that decodes is the word of its instruction (R61, R65). -/
theorem encode_of_decode {w : Word} {i : Instr} (h : decode w = .instr i) : encode i = w := by
  rcases nibble_cases (opField w) with e | e | e | e | e | e | e | e | e | e | e | e | e | e | e | e
  · rw [decode_op0 e, decodeFamily0] at h; repeat' split at h
    all_goals cases h
    all_goals exact Eq.symm (by assumption)
  · rw [decode_op1 e] at h; cases h; exact fmtNNN_of_fields e
  · rw [decode_op2 e] at h; cases h; exact fmtNNN_of_fields e
  · rw [decode_op3 e] at h; cases h; exact fmtXKK_of_fields e rfl
  · rw [decode_op4 e] at h; cases h; exact fmtXKK_of_fields e rfl
  · rw [decode_op5 e, decodeFamily5] at h; repeat' split at h
    all_goals cases h
    exact fmtXYN_of_fields e (by assumption)
  · rw [decode_op6 e] at h; cases h; exact fmtXKK_of_fields e rfl
  · rw [decode_op7 e] at h; cases h; exact fmtXKK_of_fields e rfl
  · rw [decode_op8 e, decodeFamily8] at h; repeat' split at h
    all_goals cases h
    all_goals exact fmtXYN_of_fields e (by assumption)
  · rw [decode_op9 e, decodeFamily9] at h; repeat' split at h
    all_goals cases h
    exact fmtXYN_of_fields e (by assumption)
  · rw [decode_opA e] at h; cases h; exact fmtNNN_of_fields e
  · rw [decode_opB e] at h; cases h; exact fmtNNN_of_fields e
  · rw [decode_opC e] at h; cases h; exact fmtXKK_of_fields e rfl
  · rw [decode_opD e] at h; cases h; exact fmtXYN_of_fields e rfl
  · rw [decode_opE e, decodeFamilyE] at h; repeat' split at h
    all_goals cases h
    all_goals exact fmtXKK_of_fields e (by assumption)
  · rw [decode_opF e, decodeFamilyF] at h; repeat' split at h
    all_goals cases h
    all_goals exact fmtXKK_of_fields e (by assumption)

end Sys2Proof

namespace Sys2Proof.Machine

/-! ## What a configuration within R6 gives -/

/-- A configuration that satisfies R6: the font ends inside the reserved region, and the framebuffer has a pixel. -/
theorem bounds_of_wellFormed {cfg : Config} (h : cfg.wellFormed = true) :
    cfg.fontBase + 80 ≤ 0x200 ∧ 0 < cfg.fbW ∧ 0 < cfg.fbH := by
  simp only [Config.wellFormed, Bool.and_eq_true, decide_eq_true_eq] at h
  omega

/-- The glyph address stays inside the 4096 bytes of memory, whatever the byte that names the glyph (R6, R91). -/
theorem glyphAddress_lt {cfg : Config} (h : cfg.wellFormed = true) (vx : Byte) : (glyphAddress cfg vx).toNat < 4096 := by
  obtain ⟨hfont, -⟩ := bounds_of_wellFormed h
  have := vx.isLt
  rw [glyphAddress, BitVec.toNat_ofNat]
  exact (Nat.mod_le _ _).trans_lt (by omega)

theorem indexSum_lt (i : Word) (vx : Byte) : (indexSum i vx).toNat < 4096 := by
  rw [indexSum, BitVec.toNat_ofNat]
  omega

/-- A block raises under FAULT only (R33). -/
theorem not_wrap_of_addrs_none {cfg : Config} {ea n : Nat} (h : addrs cfg ea n = none) : cfg.addrPolicy ≠ .wrap := by
  intro hw
  simp [addrs_eq, hw] at h

/-- A fetch raises under FAULT only (R33, R55). -/
theorem not_wrap_of_fetch_none {s : State} (h : fetch s = none) : s.cfg.addrPolicy ≠ .wrap := by
  intro hw
  simp [fetch_wrap hw] at h

/-! ## Rules of the invariant, one for each way a state goes on -/

section
variable {s t : State}

/-- The invariant speaks neither of V, the stack entries and the timers nor of the request and the host's inputs. -/
theorem State.Inv.congr (hs : s.Inv) (hcfg : t.cfg = s.cfg) (hmem : t.mem = s.mem) (hfb : t.fb = s.fb) (hsp : t.sp = s.sp)
    (hi : t.i = s.i) (hpc : t.pc = s.pc) (hrun : t.run = s.run) (herr : t.err = s.err) (hkey : t.keyPrev = s.keyPrev) :
    t.Inv where
  config := by rw [hcfg]; exact hs.config
  memory := by rw [hcfg, hmem]; exact hs.memory
  framebuffer := by rw [hcfg, hfb]; exact hs.framebuffer
  stackPointer := by rw [hsp]; exact hs.stackPointer
  index := by rw [hi]; exact hs.index
  noError := by rw [hrun, herr]; exact hs.noError
  haltedError := by rw [hrun, herr, hpc]; exact hs.haltedError
  wrapNeverOutOfBounds := by rw [hcfg, herr]; exact hs.wrapNeverOutOfBounds
  levelNoKeyPrev := by rw [hcfg, hkey]; exact hs.levelNoKeyPrev
  waiting := by rw [hrun, fetch_congr hpc hmem hcfg]; exact hs.waiting

/-- Going on in RUNNING from a state that has not halted: V, the stack entries, the timers and PC are free, and of the other
fields an instruction writes, what it leaves there has to be shown within bounds. -/
theorem State.Inv.running (hs : s.Inv) (hlive : s.run ≠ .halted) (hrun : t.run = .running) (hcfg : t.cfg = s.cfg)
    (herr : t.err = s.err) (hkey : t.keyPrev = s.keyPrev) (hmem : Memory.wf s.cfg t.mem)
    (hfb : Framebuffer.wf s.cfg t.fb) (hsp : t.sp.toNat ≤ 16) (hi : t.i.toNat < 4096) : t.Inv where
  config := by rw [hcfg]; exact hs.config
  memory := by rw [hcfg]; exact hmem
  framebuffer := by rw [hcfg]; exact hfb
  stackPointer := hsp
  index := hi
  noError _ := by rw [herr]; exact hs.noError hlive
  haltedError h := by rw [hrun] at h; cases h
  wrapNeverOutOfBounds := by rw [hcfg, herr]; exact hs.wrapNeverOutOfBounds
  levelNoKeyPrev := by rw [hcfg, hkey]; exact hs.levelNoKeyPrev
  waiting x h := by rw [hrun] at h; cases h

theorem beginStep_inv (hs : s.Inv) : (beginStep s).Inv := by apply hs.congr <;> simp

theorem endStep_inv (hs : s.Inv) : (endStep s).Inv := by apply hs.congr <;> simp

/-- Halting by an error (R107); OutOfBoundsAddress needs the policy FAULT (R33). -/
theorem raise_inv (hs : s.Inv) {kind : ErrorKind} (hkind : kind ≠ .none)
    (hpolicy : kind = .outOfBoundsAddress → s.cfg.addrPolicy ≠ .wrap) (w : Word) : (raise kind w s).Inv :=
  { hs with
    noError := fun h => absurd rfl h
    haltedError := fun _ => ⟨hkind, rfl⟩
    wrapNeverOutOfBounds := fun hw hk => hpolicy hk hw
    waiting := fun _ h => nomatch h }

/-- Entering AWAIT_KEY(x) where the word at PC is LD Vx,K (R103). -/
theorem awaitKey_inv (hs : s.Inv) (hlive : s.run ≠ .halted) {x : Nibble} (hfetch : fetch s = some (encode (.ldVxK x))) :
    (awaitKey x s).Inv :=
  { hs with
    noError := fun _ => hs.noError hlive
    haltedError := fun h => nomatch h
    waiting := fun y h => by cases h; exact hfetch }

/-- Storing key levels in KEY_PREV, which exists under EDGE (R25). -/
theorem setKeyPrev_inv (hs : s.Inv) (hedge : s.cfg.keyWaitMode = .edge) (keys : BitVec 16) :
    State.Inv { s with keyPrev := keys } :=
  { hs with levelNoKeyPrev := fun hlevel => by cases hedge.symm.trans hlevel }

theorem samplePrev_inv (hs : s.Inv) : (samplePrev s).Inv := by
  unfold samplePrev
  split
  · exact hs
  · exact setKeyPrev_inv hs (by assumption) _

/-! ## The instructions -/

/-- What `ADD I,Vx` leaves, under either value of ADD_I_SETS_VF (R90). -/
theorem execAddIVx_frame (x : Nibble) (s : State) :
    ∃ v, execAddIVx x s = .next { s with v := v, i := indexSum s.i (getV s x), pc := s.pc + 2 } := by
  unfold execAddIVx
  cases s.cfg.addISetsVF <;> exact ⟨_, rfl⟩

/-- A block of memory raised nothing and is stored (R92, R93). -/
theorem storeBlock_inv (hs : s.Inv) (hrun : s.run = .running) {ea n : Nat} {as : List Nat}
    (has : addrs s.cfg ea n = some as) (bs : List Byte) : (advance (writeBytes as bs s)).Inv :=
  hs.running (by simp [hrun]) (by simp [hrun]) (by simp) (by simp) (by simp) (writeBytes_wf hs.memory (addrs_lt has))
    (by simpa using hs.framebuffer) (by simpa using hs.stackPointer) (by simpa using hs.index)

/-- A block of memory raised (R109). -/
theorem raiseBlock_inv (hs : s.Inv) {ea n : Nat} (hnone : addrs s.cfg ea n = none) (w : Word) :
    (raise .outOfBoundsAddress w s).Inv :=
  raise_inv hs (by decide) (fun _ => not_wrap_of_addrs_none hnone) w

theorem execRet_inv (hs : s.Inv) (hrun : s.run = .running) (h : execRet s = .next t) : t.Inv := by
  unfold execRet at h
  split at h
  · cases h; exact raise_inv hs (by decide) (by simp) _
  · split at h
    · rename_i hpop
      cases h
      obtain ⟨hsp, rfl⟩ := popPC_eq_some hpop
      exact hs.running (by simp [hrun]) hrun rfl rfl rfl hs.memory hs.framebuffer hsp.le hs.index
    · cases h

theorem execCallAddr_inv {nnn : Addr12} (hs : s.Inv) (hrun : s.run = .running) (h : execCallAddr nnn s = .next t) :
    t.Inv := by
  unfold execCallAddr at h
  split at h
  · cases h; exact raise_inv hs (by decide) (by simp) _
  · split at h
    · rename_i hpush
      cases h
      obtain ⟨hsp, rfl⟩ := push_eq_some hpush
      have hsp' : (s.sp + 1).toNat ≤ 16 := by rw [BitVec.toNat_add]; simp; omega
      exact hs.running (by simp [hrun]) hrun rfl rfl rfl hs.memory hs.framebuffer hsp' hs.index
    · cases h

theorem execDrwVxVyN_inv {x y n : Nibble} (hs : s.Inv) (hrun : s.run = .running) (h : execDrwVxVyN x y n s = .next t) :
    t.Inv := by
  unfold execDrwVxVyN at h
  split at h
  · obtain ⟨-, hw, hh⟩ := bounds_of_wellFormed hs.config
    cases h
    exact hs.running (by simp [hrun]) hrun rfl rfl rfl hs.memory
      (drawPixels_wf hs.framebuffer (spritePixels_inside hw hh _ _ _ _)) hs.stackPointer hs.index
  · cases h; exact raiseBlock_inv hs (by assumption) _

theorem execLdBVx_inv {x : Nibble} (hs : s.Inv) (hrun : s.run = .running) (h : execLdBVx x s = .next t) : t.Inv := by
  unfold execLdBVx at h
  split at h <;> cases h
  · exact storeBlock_inv hs hrun (by assumption) _
  · exact raiseBlock_inv hs (by assumption) _

theorem execLdMemIVx_inv {x : Nibble} (hs : s.Inv) (hrun : s.run = .running) (h : execLdMemIVx x s = .next t) : t.Inv := by
  unfold execLdMemIVx at h
  split at h <;> cases h
  · exact storeBlock_inv hs hrun (by assumption) _
  · exact raiseBlock_inv hs (by assumption) _

theorem execLdVxMemI_inv {x : Nibble} (hs : s.Inv) (hrun : s.run = .running) (h : execLdVxMemI x s = .next t) : t.Inv := by
  unfold execLdVxMemI at h
  split at h <;> cases h
  · rw [loadRegs_frame]
    exact hs.running (by simp [hrun]) hrun rfl rfl rfl hs.memory hs.framebuffer hs.stackPointer hs.index
  · exact raiseBlock_inv hs (by assumption) _

theorem execLdVxK_inv {x : Nibble} (hs : s.Inv) (hrun : s.run = .running) (hfetch : fetch s = some (encode (.ldVxK x)))
    (h : execLdVxK x s = .next t) : t.Inv := by
  have hlive : s.run ≠ .halted := by simp [hrun]
  unfold execLdVxK at h
  split at h <;> cases h
  · split
    · exact awaitKey_inv hs hlive hfetch
    · exact hs.running hlive hrun rfl rfl rfl hs.memory hs.framebuffer hs.stackPointer hs.index
  · exact awaitKey_inv (setKeyPrev_inv hs (by assumption) s.inputs.keys) hlive hfetch

/-- Every instruction keeps the invariant, from a RUNNING state at whose PC it stands. The instructions that can raise, wait,
or write memory, the framebuffer, SP or I have their own case; the others write V, the timers and PC only. -/
theorem exec_inv {i : Instr} (hs : s.Inv) (hrun : s.run = .running) (hfetch : fetch s = some (encode i))
    (h : exec i s = .next t) : t.Inv := by
  have hlive : s.run ≠ .halted := by simp [hrun]
  cases i
  case ret => exact execRet_inv hs hrun h
  case callAddr => exact execCallAddr_inv hs hrun h
  case drwVxVyN => exact execDrwVxVyN_inv hs hrun h
  case ldBVx => exact execLdBVx_inv hs hrun h
  case ldMemIVx => exact execLdMemIVx_inv hs hrun h
  case ldVxMemI => exact execLdVxMemI_inv hs hrun h
  case ldVxK => exact execLdVxK_inv hs hrun hfetch h
  case cls =>
    cases h
    exact hs.running hlive hrun rfl rfl rfl hs.memory ⟨.nil, fun _ hp => nomatch hp⟩ hs.stackPointer hs.index
  case ldIAddr nnn =>
    cases h
    have hi : (zext16 nnn).toNat < 4096 := zext16_toNat nnn ▸ nnn.isLt
    exact hs.running hlive hrun rfl rfl rfl hs.memory hs.framebuffer hs.stackPointer hi
  case ldFVx =>
    cases h
    exact hs.running hlive hrun rfl rfl rfl hs.memory hs.framebuffer hs.stackPointer (glyphAddress_lt hs.config _)
  case addIVx x =>
    obtain ⟨v, hv⟩ := execAddIVx_frame x s
    cases hv.symm.trans h
    exact hs.running hlive hrun rfl rfl rfl hs.memory hs.framebuffer hs.stackPointer (indexSum_lt _ _)
  all_goals
    cases h
    exact hs.running hlive hrun rfl rfl rfl hs.memory hs.framebuffer hs.stackPointer hs.index

/-! ## The step -/

/-- The poll of a key wait keeps the invariant: one that does not resolve leaves the word at PC, and one that does goes on in
RUNNING (R104). -/
theorem poll_inv {x : Nibble} (hs : s.Inv) (hrun : s.run = .awaitKey x) : (poll x s).Inv := by
  have hp := samplePrev_inv hs
  simp only [poll]
  split
  · exact hp
  · exact hp.running (by simp [hrun]) rfl rfl rfl rfl hp.memory hp.framebuffer hp.stackPointer hp.index

/-- A fetch or decode error keeps the invariant (R55, R60). -/
theorem fetchDecode_error_inv (hs : s.Inv) (h : fetchDecode s = .error t) : t.Inv := by
  obtain ⟨hf, e⟩ | ⟨w, w', -, -, e⟩ | ⟨w, i, -, -, e⟩ := fetchDecode_cases s
  · cases e.symm.trans h; exact raise_inv hs (by decide) (fun _ => not_wrap_of_fetch_none hf) _
  · cases e.symm.trans h; exact raise_inv hs (by decide) (by simp) _
  · cases e.symm.trans h

/-- The instruction a step executes stands at PC (R54, R55). -/
theorem fetch_of_fetchDecode {i : Instr} (h : fetchDecode s = .instr i) : fetch s = some (encode i) := by
  obtain ⟨-, e⟩ | ⟨w, w', -, -, e⟩ | ⟨w, j, hf, hd, e⟩ := fetchDecode_cases s
  · cases e.symm.trans h
  · cases e.symm.trans h
  · cases e.symm.trans h; rw [encode_of_decode hd]; exact hf

/-- The CORE's own step keeps the invariant (R54). -/
theorem stepCore_inv (hs : s.Inv) (h : stepCore s = .next t) : t.Inv := by
  obtain ⟨-, rfl⟩ | ⟨x, hrun, rfl⟩ | ⟨hrun, ⟨i, hi, he⟩ | he⟩ := stepCore_next h
  · exact hs
  · exact poll_inv hs hrun
  · exact exec_inv hs hrun (fetch_of_fetchDecode hi) he
  · exact fetchDecode_error_inv hs he

end

/-- Settles O20: the ticks before the CORE's step and the host's inputs after it keep the invariant, and so does the CORE's step,
by its run state and then by the instruction. -/
theorem stepKeepsInvariant : Obligations.StepKeepsInvariant := by
  intro s t hs h
  obtain ⟨-, u, hu, rfl⟩ := step_next h
  exact endStep_inv (stepCore_inv (beginStep_inv hs) hu)

end Sys2Proof.Machine

namespace Sys2Proof.Machine

/-! ## Who writes what -/

section
variable {i : Instr} {s t : State}

/-- What an instruction that raises nothing leaves alone: each field but those that are the instruction's own to write (R14 to
R29). RUN and ERR are left to `exec_next_cases`. A clause that holds by definition of `t` is filled in by its default. -/
structure OwnWrites (i : Instr) (s t : State) : Prop where
  cfg : t.cfg = s.cfg := by rfl
  inputs : t.inputs = s.inputs := by rfl
  drawn : t.drawn = s.drawn := by rfl
  reg : ∀ r, writesReg s.cfg i r = false → getV t r = getV s r := by exact fun _ _ => rfl
  inSequence : setsPC i = false → InSequence s t := by exact fun _ => inSequence_advance rfl
  stack : (∀ nnn, i ≠ .callAddr nnn) → t.stack = s.stack := by exact fun _ => rfl
  sp : (∀ nnn, i ≠ .callAddr nnn) → i ≠ .ret → t.sp = s.sp := by exact fun _ _ => rfl
  index : (∀ nnn, i ≠ .ldIAddr nnn) → (∀ x, i ≠ .addIVx x ∧ i ≠ .ldFVx x) → t.i = s.i := by exact fun _ _ => rfl
  dt : (∀ x, i ≠ .ldDTVx x) → t.dt = s.dt := by exact fun _ => rfl
  st : (∀ x, i ≠ .ldSTVx x) → t.st = s.st := by exact fun _ => rfl
  keyPrev : (∀ x, i ≠ .ldVxK x) → t.keyPrev = s.keyPrev := by exact fun _ => rfl
  fb : i ≠ .cls → (∀ x y n, i ≠ .drwVxVyN x y n) → t.fb = s.fb := by exact fun _ _ => rfl
  byte : (∀ x, i ≠ .ldBVx x ∧ i ≠ .ldMemIVx x) → ∀ a, readByte t a = readByte s a := by exact fun _ _ => rfl
  request : i ≠ .cls → (∀ x y n, i ≠ .drwVxVyN x y n) → (∀ x, i ≠ .ldDTVx x ∧ i ≠ .ldSTVx x ∧ i ≠ .ldVxK x) →
    t.request = s.request := by exact fun _ _ _ => rfl

/-- A write to V[x] leaves every other register alone. -/
theorem getV_setV_of_not_dest {x r : Nibble} (h : (r == x) = false) (b : Byte) (s : State) :
    getV (setV x b s) r = getV s r := by
  rw [getV_setV, if_neg (by simpa using h)]

/-- A result with its flag leaves every register alone but V[x] and VF. -/
theorem getV_setResultThenFlag_of_not_dest {x r : Nibble} (h : (r == x || r == 0xF) = false) (result flag : Byte)
    (s : State) : getV (setResultThenFlag x result flag s) r = getV s r := by
  simp only [Bool.or_eq_false_iff, beq_eq_false_iff_ne] at h
  obtain ⟨hx, hVF⟩ := h
  rw [getV_setResultThenFlag, if_neg hVF, if_neg hx]

/-- A block of `x + 1` bytes loaded from V0 up leaves the registers above Vx alone. -/
theorem getV_loadRegs_above {x r : Nibble} (h : x.toNat < r.toNat) {bs : List Byte} (hlen : bs.length = x.toNat + 1)
    (s : State) : getV (loadRegs 0 bs s) r = getV s r := by
  have hx := x.isLt
  rw [getV_loadRegs 0 bs s r (by omega), if_pos (Nat.zero_le _), List.getD_eq_default _ _ (by omega)]

/-- An instruction raised an error (R107), or wrote its own fields only. -/
def RaisesOrOwnWrites (i : Instr) (s t : State) : Prop :=
  (∃ kind, kind ≠ .none ∧ t = raise kind (encode i) s) ∨ OwnWrites i s t

theorem execRet_writes (h : execRet s = .next t) : RaisesOrOwnWrites .ret s t := by
  unfold execRet at h
  split at h
  · cases h; exact .inl ⟨_, by decide, rfl⟩
  · split at h
    · rename_i hpop
      cases h
      obtain ⟨-, rfl⟩ := popPC_eq_some hpop
      exact .inr { inSequence := nofun, sp := fun _ hret => absurd rfl hret }
    · cases h

theorem execCallAddr_writes {nnn : Addr12} (h : execCallAddr nnn s = .next t) :
    RaisesOrOwnWrites (.callAddr nnn) s t := by
  unfold execCallAddr at h
  split at h
  · cases h; exact .inl ⟨_, by decide, rfl⟩
  · split at h
    · rename_i hpush
      cases h
      obtain ⟨-, rfl⟩ := push_eq_some hpush
      exact .inr
        { inSequence := nofun
          stack := fun hcall => absurd rfl (hcall nnn)
          sp := fun hcall => absurd rfl (hcall nnn) }
    · cases h

theorem execDrwVxVyN_writes {x y n : Nibble} (h : execDrwVxVyN x y n s = .next t) :
    RaisesOrOwnWrites (.drwVxVyN x y n) s t := by
  unfold execDrwVxVyN at h
  split at h <;> cases h
  · exact .inr
      { reg := fun r hr => getV_setV_of_not_dest (r := r) hr _ _
        fb := fun _ hdrw => absurd rfl (hdrw x y n)
        request := fun _ hdrw => absurd rfl (hdrw x y n) }
  · exact .inl ⟨_, by decide, rfl⟩

theorem execLdBVx_writes {x : Nibble} (h : execLdBVx x s = .next t) : RaisesOrOwnWrites (.ldBVx x) s t := by
  unfold execLdBVx at h
  split at h <;> cases h
  · rw [writeBytes_frame]
    exact .inr { byte := fun hst => absurd rfl (hst x).1 }
  · exact .inl ⟨_, by decide, rfl⟩

theorem execLdMemIVx_writes {x : Nibble} (h : execLdMemIVx x s = .next t) : RaisesOrOwnWrites (.ldMemIVx x) s t := by
  unfold execLdMemIVx at h
  split at h <;> cases h
  · rw [writeBytes_frame]
    exact .inr { byte := fun hst => absurd rfl (hst x).2 }
  · exact .inl ⟨_, by decide, rfl⟩

theorem execLdVxMemI_writes {x : Nibble} (h : execLdVxMemI x s = .next t) : RaisesOrOwnWrites (.ldVxMemI x) s t := by
  unfold execLdVxMemI at h
  split at h <;> cases h
  · rename_i as has
    have hreg : ∀ r : Nibble, writesReg s.cfg (.ldVxMemI x) r = false →
        getV (loadRegs 0 (as.map (readByte s)) s) r = getV s r := fun r hr =>
      getV_loadRegs_above (by simpa [writesReg] using hr) (by rw [List.length_map, addrs_length has]) s
    rw [loadRegs_frame] at hreg ⊢
    exact .inr { reg := hreg }
  · exact .inl ⟨_, by decide, rfl⟩

theorem execLdVxK_writes {x : Nibble} (h : execLdVxK x s = .next t) : OwnWrites (.ldVxK x) s t := by
  unfold execLdVxK at h
  split at h <;> cases h
  · split
    · exact { inSequence := nofun, request := fun _ _ hkey => absurd rfl (hkey x).2.2 }
    · exact { reg := fun r hr => getV_setV_of_not_dest (r := r) hr _ _ }
  · exact
      { inSequence := nofun
        keyPrev := fun hkey => absurd rfl (hkey x)
        request := fun _ _ hkey => absurd rfl (hkey x).2.2 }

theorem execAddIVx_writes {x : Nibble} (h : execAddIVx x s = .next t) : OwnWrites (.addIVx x) s t := by
  unfold execAddIVx at h
  cases hvf : s.cfg.addISetsVF <;> simp only [hvf] at h <;> cases h
  · exact { index := fun _ hx => absurd rfl (hx x).1 }
  · exact
      { reg := fun r hr => getV_setV_of_not_dest (r := r) (by simpa [writesReg, hvf] using hr) _ _
        index := fun _ hx => absurd rfl (hx x).1 }

/-- Everything an instruction that answers a next state can have written. -/
theorem exec_writes (h : exec i s = .next t) : RaisesOrOwnWrites i s t := by
  cases i
  case ret => exact execRet_writes h
  case callAddr => exact execCallAddr_writes h
  case drwVxVyN => exact execDrwVxVyN_writes h
  case ldBVx => exact execLdBVx_writes h
  case ldMemIVx => exact execLdMemIVx_writes h
  case ldVxMemI => exact execLdVxMemI_writes h
  case ldVxK => exact .inr (execLdVxK_writes h)
  case addIVx => exact .inr (execAddIVx_writes h)
  case cls => cases h; exact .inr { fb := fun hcls => absurd rfl hcls, request := fun hcls => absurd rfl hcls }
  case ldIAddr nnn => cases h; exact .inr { index := fun hi => absurd rfl (hi nnn) }
  case ldFVx x => cases h; exact .inr { index := fun _ hf => absurd rfl (hf x).2 }
  case ldDTVx x =>
    cases h
    exact .inr { dt := fun hx => absurd rfl (hx x), request := fun _ _ hx => absurd rfl (hx x).1 }
  case ldSTVx x =>
    cases h
    exact .inr { st := fun hx => absurd rfl (hx x), request := fun _ _ hx => absurd rfl (hx x).2.1 }
  case ldVxKk | addVxKk | ldVxVy | orVxVy | andVxVy | xorVxVy | rndVxKk | ldVxDT =>
    cases h
    exact .inr { reg := fun r hr => getV_setV_of_not_dest (r := r) hr _ _ }
  case addVxVy | subVxVy | subnVxVy | shrVx | shlVx =>
    cases h
    exact .inr { reg := fun r hr => getV_setResultThenFlag_of_not_dest (r := r) hr _ _ _ }
  case jpAddr | jpV0Addr | seVxKk | sneVxKk | seVxVy | sneVxVy | skpVx | sknpVx =>
    cases h
    exact .inr { inSequence := nofun }

/-- Raising an error is the precise halt of R107. -/
theorem raise_haltedBy (kind : ErrorKind) (w : Word) (s : State) : HaltedBy kind w s (raise kind w s) :=
  ⟨rfl, fun _ => rfl⟩

end

/-- Settles O29: a raised error writes RUN, ERR and the request only; every other outcome writes the instruction's own fields. -/
theorem eachStateHasItsOwnWriters : Obligations.EachStateHasItsOwnWriters := by
  intro i s t h
  obtain ⟨kind, hkind, rfl⟩ | w := exec_writes h
  · have hhalt : ∃ k, k ≠ .none ∧ HaltedBy k (encode i) s (raise kind (encode i) s) :=
      ⟨kind, hkind, raise_haltedBy _ _ _⟩
    exact ⟨⟨rfl, rfl, rfl⟩, fun _ _ => rfl, .inr (.inr hhalt), fun _ => .inr hhalt, fun _ => rfl, fun _ _ => rfl,
      fun _ _ => rfl, fun _ => rfl, fun _ => rfl, fun _ => rfl, fun _ _ => rfl, fun _ _ => rfl, fun _ _ _ => .inr hhalt⟩
  · have hrun : (t.run = s.run ∧ t.err = s.err) ∨ (∃ x, i = .ldVxK x ∧ t.run = .awaitKey x ∧ t.err = s.err) ∨
        ∃ kind, kind ≠ .none ∧ HaltedBy kind (encode i) s t := by
      obtain ⟨kind, hkind, rfl⟩ | hsame | hwait := exec_next_cases h
      · exact .inr (.inr ⟨kind, hkind, raise_haltedBy _ _ _⟩)
      · exact .inl hsame
      · exact .inr (.inl hwait)
    exact ⟨⟨w.cfg, w.inputs, w.drawn⟩, w.reg, hrun, fun hpc => .inl (w.inSequence hpc), w.stack, w.sp, w.index, w.dt, w.st,
      w.keyPrev, w.fb, w.byte, fun hcls hdrw hx => .inl (w.request hcls hdrw hx)⟩

/-! ## VF -/

section
variable {i : Instr} {s t : State}

/-- The bit `SHR` shifts out is a flag (R15, R85). -/
theorem shiftedOutRight_zero_or_one (vx : Byte) : shiftedOutRight vx = 0x00 ∨ shiftedOutRight vx = 0x01 := by
  have hlow : (shiftedOutRight vx).toNat = vx.toNat % 2 := by
    rw [shiftedOutRight, BitVec.toNat_and]; exact Nat.and_one_is_mod _
  rcases Nat.mod_two_eq_zero_or_one vx.toNat with e | e
  · exact .inl (BitVec.eq_of_toNat_eq (hlow.trans e))
  · exact .inr (BitVec.eq_of_toNat_eq (hlow.trans e))

/-- The bit `SHL` shifts out is a flag (R15, R86). -/
theorem shiftedOutLeft_zero_or_one (vx : Byte) : shiftedOutLeft vx = 0x00 ∨ shiftedOutLeft vx = 0x01 := by
  have hhigh : (shiftedOutLeft vx).toNat = vx.toNat / 128 := by
    rw [shiftedOutLeft, BitVec.toNat_ushiftRight, Nat.shiftRight_eq_div_pow]
  have := vx.isLt
  rcases (by omega : vx.toNat / 128 = 0 ∨ vx.toNat / 128 = 1) with e | e
  · exact .inl (BitVec.eq_of_toNat_eq (hhigh.trans e))
  · exact .inr (BitVec.eq_of_toNat_eq (hhigh.trans e))

theorem getV_setVF (b : Byte) (s : State) : getV (setVF b s) 0xF = b := by
  rw [setVF, getV_setV, if_pos rfl]

/-- The flag is written last, so it is what VF ends as, x = F included (R75). -/
theorem getV_setResultThenFlag_VF (x : Nibble) (result flag : Byte) (s : State) :
    getV (setResultThenFlag x result flag s) 0xF = flag := getV_setVF _ _

/-- A flag instruction that completes leaves 0x00 or 0x01 in VF (R15, R16). -/
theorem exec_flag_zero_or_one (hflag : writesFlag s.cfg i = true) (h : exec i s = .next t) (hlive : t.run ≠ .halted) :
    getV t 0xF = 0x00 ∨ getV t 0xF = 0x01 := by
  cases i
  case addVxVy | subVxVy | subnVxVy =>
    cases h
    rw [getV_advance, getV_setResultThenFlag_VF]
    exact flagByte_zero_or_one _
  case shrVx =>
    cases h
    rw [getV_advance, getV_setResultThenFlag_VF]
    exact shiftedOutRight_zero_or_one _
  case shlVx =>
    cases h
    rw [getV_advance, getV_setResultThenFlag_VF]
    exact shiftedOutLeft_zero_or_one _
  case drwVxVyN =>
    simp only [exec, execDrwVxVyN] at h
    split at h <;> cases h
    · rw [getV_advance, getV_setVF]
      exact flagByte_zero_or_one _
    · exact absurd rfl hlive
  case addIVx =>
    have hvf : s.cfg.addISetsVF = true := hflag
    simp only [exec, execAddIVx, if_pos hvf] at h
    cases h
    rw [getV_advance, getV_setVF]
    exact flagByte_zero_or_one _
  all_goals cases hflag

/-- VF is no register of an instruction that neither writes a flag nor names VF as its destination (R15, R16). -/
theorem writesReg_VF_eq_false {cfg : Config} (hflag : writesFlag cfg i = false)
    (himm : ∀ kk, i ≠ .ldVxKk 0xF kk ∧ i ≠ .addVxKk 0xF kk ∧ i ≠ .rndVxKk 0xF kk)
    (hreg : ∀ y, i ≠ .ldVxVy 0xF y ∧ i ≠ .orVxVy 0xF y ∧ i ≠ .andVxVy 0xF y ∧ i ≠ .xorVxVy 0xF y)
    (hdt : i ≠ .ldVxDT 0xF) (hkey : i ≠ .ldVxK 0xF) (hload : i ≠ .ldVxMemI 0xF) : writesReg cfg i 0xF = false := by
  by_contra hw
  rw [Bool.not_eq_false] at hw
  cases i
  case ldVxKk x kk => cases (beq_iff_eq.1 hw : 0xF = x); exact (himm kk).1 rfl
  case addVxKk x kk => cases (beq_iff_eq.1 hw : 0xF = x); exact (himm kk).2.1 rfl
  case rndVxKk x kk => cases (beq_iff_eq.1 hw : 0xF = x); exact (himm kk).2.2 rfl
  case ldVxVy x y => cases (beq_iff_eq.1 hw : 0xF = x); exact (hreg y).1 rfl
  case orVxVy x y => cases (beq_iff_eq.1 hw : 0xF = x); exact (hreg y).2.1 rfl
  case andVxVy x y => cases (beq_iff_eq.1 hw : 0xF = x); exact (hreg y).2.2.1 rfl
  case xorVxVy x y => cases (beq_iff_eq.1 hw : 0xF = x); exact (hreg y).2.2.2 rfl
  case ldVxDT x => cases (beq_iff_eq.1 hw : 0xF = x); exact hdt rfl
  case ldVxK x => cases (beq_iff_eq.1 hw : 0xF = x); exact hkey rfl
  case ldVxMemI x =>
    have hle : 15 ≤ x.toNat := of_decide_eq_true hw
    have hx : x = 0xF := BitVec.eq_of_toNat_eq (le_antisymm (Nat.le_of_lt_succ x.isLt) hle)
    exact hload (hx ▸ rfl)
  case addIVx =>
    have hvf : cfg.addISetsVF = false := hflag
    simp [writesReg, hvf] at hw
  case addVxVy | subVxVy | subnVxVy | shrVx | shlVx | drwVxVyN => cases hflag
  all_goals cases hw

end

/-- Settles O30: the frame of O29 at VF, and the flag each flag instruction leaves. -/
theorem vfIsWrittenAsFlagOrDestination : Obligations.VFIsWrittenAsFlagOrDestination := by
  intro i s t _ h
  obtain ⟨-, hregs, -⟩ := eachStateHasItsOwnWriters i s t h
  exact ⟨fun hflag himm hreg hdt hkey hload => hregs 0xF (writesReg_VF_eq_false hflag himm hreg hdt hkey hload),
    fun hflag hlive => exec_flag_zero_or_one hflag h hlive⟩

/-! ## The key wait and the stack, case by case -/

/-- `LD Vx,K` under LEVEL with no key pressed (R103). -/
theorem execLdVxK_level_waits {x : Nibble} {s : State} (hmode : s.cfg.keyWaitMode = .level) (hk : s.inputs.keys = 0) :
    execLdVxK x s = .next (awaitKey x s) := by
  simp only [execLdVxK, hmode, if_pos hk]

/-- `LD Vx,K` under LEVEL with a key pressed (R103). -/
theorem execLdVxK_level_resolves {x : Nibble} {s : State} (hmode : s.cfg.keyWaitMode = .level) (hk : s.inputs.keys ≠ 0) :
    execLdVxK x s = .next (advance (setV x (zext8 (select s.cfg s.inputs.pick s.inputs.keys)) s)) := by
  simp only [execLdVxK, hmode, if_neg hk]

/-- `LD Vx,K` under EDGE (R103). -/
theorem execLdVxK_edge {x : Nibble} {s : State} (hmode : s.cfg.keyWaitMode = .edge) :
    execLdVxK x s = .next (awaitKey x { s with keyPrev := s.inputs.keys }) := by
  simp only [execLdVxK, hmode]

theorem popPC_of_not_lt {s : State} (hs : ¬ (s.sp - 1).toNat < 16) : popPC s = none := dif_neg hs

theorem push_of_not_lt (v : Word) {s : State} (hs : ¬ s.sp.toNat < 16) : push v s = none := dif_neg hs

/-! ## The host's inputs -/

/-- `s` with another input record (R27, R28, R105). -/
def State.withInputs (inp : Inputs) (s : State) : State := { s with inputs := inp }

section
variable (inp : Inputs) (s : State)

theorem withRnd_eq_withInputs (r : Byte) : s.withRnd r = s.withInputs { s.inputs with rnd := r } := rfl

theorem withKeys_eq_withInputs (keys : BitVec 16) (pick : Nibble) :
    s.withKeys keys pick = s.withInputs { s.inputs with keys := keys, pick := pick } := rfl

@[simp] theorem withInputs_i : (s.withInputs inp).i = s.i := rfl

@[simp] theorem withInputs_pc : (s.withInputs inp).pc = s.pc := rfl

@[simp] theorem withInputs_sp : (s.withInputs inp).sp = s.sp := rfl

@[simp] theorem withInputs_cfg : (s.withInputs inp).cfg = s.cfg := rfl

theorem popPC_withInputs : popPC (s.withInputs inp) = (popPC s).map (State.withInputs inp) := by
  by_cases h : (s.sp - 1).toNat < 16
  · rw [popPC_of_lt h, popPC_of_lt (s := s.withInputs inp) h]; rfl
  · rw [popPC_of_not_lt h, popPC_of_not_lt (s := s.withInputs inp) h]; rfl

theorem push_withInputs (v : Word) : push v (s.withInputs inp) = (push v s).map (State.withInputs inp) := by
  by_cases h : s.sp.toNat < 16
  · rw [push_of_lt v h, push_of_lt v (s := s.withInputs inp) h]; rfl
  · rw [push_of_not_lt v h, push_of_not_lt v (s := s.withInputs inp) h]; rfl

theorem writeBytes_withInputs (as : List Nat) (bs : List Byte) :
    writeBytes as bs (s.withInputs inp) = (writeBytes as bs s).withInputs inp := by
  induction as generalizing bs s with
  | nil => rfl
  | cons a as ih =>
    cases bs with
    | nil => rfl
    | cons b bs => exact ih (writeByte a b s) bs

theorem loadRegs_withInputs (k : Nat) (bs : List Byte) :
    loadRegs k bs (s.withInputs inp) = (loadRegs k bs s).withInputs inp := by
  induction bs generalizing k s with
  | nil => rfl
  | cons b bs ih => exact ih (setV (BitVec.ofNat 4 k) b s) (k + 1)

/-- No instruction but RND, the two key skips and LD Vx,K reads the input record (R27, R28): with another record it has the same
outcome, the other record kept. -/
theorem exec_withInputs {i : Instr} (hrnd : ∀ x kk, i ≠ .rndVxKk x kk)
    (hkey : ∀ x, i ≠ .skpVx x ∧ i ≠ .sknpVx x ∧ i ≠ .ldVxK x) :
    exec i (s.withInputs inp) = mapNext (State.withInputs inp) (exec i s) := by
  cases i
  case rndVxKk x kk => exact absurd rfl (hrnd x kk)
  case skpVx x => exact absurd rfl (hkey x).1
  case sknpVx x => exact absurd rfl (hkey x).2.1
  case ldVxK x => exact absurd rfl (hkey x).2.2
  case ret =>
    simp only [exec, execRet, withInputs_sp, popPC_withInputs]
    split
    · rfl
    · cases popPC s <;> rfl
  case callAddr =>
    simp only [exec, execCallAddr, withInputs_sp, withInputs_pc, push_withInputs]
    split
    · rfl
    · cases push (s.pc + 2) s <;> rfl
  case drwVxVyN x y n =>
    simp only [exec, execDrwVxVyN, withInputs_cfg, withInputs_i]
    cases addrs s.cfg s.i.toNat n.toNat <;> rfl
  case ldBVx =>
    simp only [exec, execLdBVx, withInputs_cfg, withInputs_i, writeBytes_withInputs]
    cases addrs s.cfg s.i.toNat 3 <;> rfl
  case ldMemIVx x =>
    simp only [exec, execLdMemIVx, withInputs_cfg, withInputs_i, writeBytes_withInputs]
    cases addrs s.cfg s.i.toNat (x.toNat + 1) <;> rfl
  case ldVxMemI x =>
    simp only [exec, execLdVxMemI, withInputs_cfg, withInputs_i, loadRegs_withInputs]
    cases addrs s.cfg s.i.toNat (x.toNat + 1) <;> rfl
  case addIVx =>
    cases hvf : s.cfg.addISetsVF <;> simp only [exec, execAddIVx, withInputs_cfg, hvf] <;> rfl
  all_goals rfl

/-- LD Vx,K reads the keys and the choice among them, not the random byte (R28, R103). -/
theorem execLdVxK_withRnd (x : Nibble) (r : Byte) :
    execLdVxK x (s.withRnd r) = mapNext (State.withRnd r) (execLdVxK x s) := by
  cases hmode : s.cfg.keyWaitMode with
  | level =>
    by_cases hk : s.inputs.keys = 0
    · rw [execLdVxK_level_waits hmode hk, execLdVxK_level_waits (s := s.withRnd r) hmode hk]; rfl
    · rw [execLdVxK_level_resolves hmode hk, execLdVxK_level_resolves (s := s.withRnd r) hmode hk]; rfl
  | edge => rw [execLdVxK_edge hmode, execLdVxK_edge (s := s.withRnd r) hmode]; rfl

/-- Two changes of state that agree on the next state an instruction answers agree on its outcome. -/
theorem mapNext_congr {f g : State → State} {r : Result} (h : ∀ t, r = .next t → f t = g t) :
    mapNext f r = mapNext g r := by
  cases r with
  | next t => exact congrArg _ (h t rfl)
  | fault | refused => rfl

/-- No instruction writes the host's inputs. -/
theorem exec_inputs {i : Instr} {s t : State} (h : exec i s = .next t) : t.inputs = s.inputs := by
  obtain ⟨⟨-, hinputs, -⟩, -⟩ := eachStateHasItsOwnWriters i s t h
  exact hinputs

end

/-- Settles O32: an instruction that reads no input is blind to the whole input record, and the key instructions read its keys
only. -/
theorem randomByteReachesOnlyRnd : Obligations.RandomByteReachesOnlyRnd := by
  intro i s r hrnd
  cases i
  case skpVx | sknpVx => rfl
  case ldVxK x => exact execLdVxK_withRnd s x r
  all_goals
    rw [withRnd_eq_withInputs, exec_withInputs _ s hrnd (by simp)]
    exact mapNext_congr fun t h => by rw [withRnd_eq_withInputs, exec_inputs h]

/-- Settles O33: an instruction that reads no input is blind to the whole input record, and RND reads its random byte only. -/
theorem keysReachOnlyKeyInstructions : Obligations.KeysReachOnlyKeyInstructions := by
  intro i s keys pick hkey
  cases i
  case rndVxKk => rfl
  all_goals
    rw [withKeys_eq_withInputs, exec_withInputs _ s (by simp) hkey]
    exact mapNext_congr fun t h => by rw [withKeys_eq_withInputs, exec_inputs h]

/-! ## Reset -/

/-- The reset state of a machine whose configuration satisfies R6 has the invariant (R31, D30). -/
theorem resetWith_inv {cfg : Config} (h : cfg.wellFormed = true) : (State.resetWith cfg).Inv where
  config := h
  memory := memory_wf_nil cfg
  framebuffer := ⟨.nil, fun _ hp => nomatch hp⟩
  stackPointer := (by decide : (0 : Byte).toNat ≤ 16)
  index := (by decide : (0x0000 : Word).toNat < 4096)
  noError _ := rfl
  haltedError := nofun
  wrapNeverOutOfBounds _ := nofun
  levelNoKeyPrev _ := rfl
  waiting _ := nofun

/-- The loader writes memory only (R39). -/
theorem loadImage_frame {s t : State} {image : List Byte} (h : loadImage image s = .next t) : t = { s with mem := t.mem } := by
  unfold loadImage at h
  split at h <;> cases h
  exact writeBytes_frame _ _ _

/-- The loader keeps the invariant where no key wait stands on the word at PC (R39, R128). -/
theorem loadImage_inv {s t : State} {image : List Byte} (hs : s.Inv) (hwait : ∀ x, s.run ≠ .awaitKey x)
    (h : loadImage image s = .next t) : t.Inv := by
  have hmem := loadImage_memory_wf hs.memory h
  rw [loadImage_frame h] at hmem ⊢
  exact { hs with memory := hmem, waiting := fun x hx => absurd hx (hwait x) }

/-- Settles O21: the reset input differs from the reset state in the host's inputs only, of which the invariant does not speak. -/
theorem resetHasInvariant : Obligations.ResetHasInvariant :=
  ⟨resetWith_inv (by decide),
    fun _ hcfg => (resetWith_inv hcfg).congr rfl rfl rfl rfl rfl rfl rfl rfl rfl,
    fun _ _ _ hs hwait h => loadImage_inv hs hwait h⟩

theorem getV_resetWith (cfg : Config) (x : Nibble) : getV (State.resetWith cfg) x = 0x00 := by
  simp [getV, State.resetWith]

/-- Settles O23: each field is `State.resetWith`'s, and memory reads as its reset contents. -/
theorem resetValues : Obligations.ResetValues := by
  have hstack (k : Nat) (h : k < 16) : State.reset.stack[k] = 0x0000 := by simp [State.reset, State.resetWith]
  exact ⟨getV_resetWith _, rfl, rfl, rfl, hstack, rfl, rfl, rfl, rfl, rfl, fun _ _ => rfl,
    fun a ha => (readByte_reset a).trans (resetByte_outside hardwareConfig a ha),
    fun k hk => (readByte_reset _).trans (resetByte_font hardwareConfig k hk)⟩

end Sys2Proof.Machine

namespace Sys2Proof.Machine

/-! ## The fetch where the policy raises nothing -/

/-- Where neither address of the word raises, both policies fetch the same two bytes (R33, R40, R55). -/
theorem fetch_of_inside {s : State} (h : s.cfg.addrPolicy = .wrap ∨ s.pc.toNat + 1 < 4096) :
    fetch s = some (assemble (readByte s (s.pc.toNat % 4096)) (readByte s ((s.pc.toNat + 1) % 4096))) := by
  cases hp : s.cfg.addrPolicy with
  | wrap => exact fetch_wrap hp
  | fault =>
    have hlt : s.pc.toNat + 1 < 4096 := h.resolve_left (by simp [hp])
    rw [fetch_fault hp, if_pos hlt, Nat.mod_eq_of_lt hlt, Nat.mod_eq_of_lt (by omega)]

/-- Settles O9: the two bytes assemble high byte first. -/
theorem fetchIsBigEndian : Obligations.FetchIsBigEndian := by
  intro s
  constructor
  · intro h
    exact ⟨_, fetch_of_inside h, by rw [assemble_toNat]; omega⟩
  · intro hp hout
    rw [fetch_fault hp, if_neg (by omega)]

/-! ## The loader -/

theorem loadImage_of_fits {image : List Byte} (h : image.length ≤ 3584) (s : State) :
    loadImage image s = .next (writeBytes ((List.range image.length).map (0x200 + ·)) image s) := if_pos h

theorem loadImage_of_oversize {image : List Byte} (h : 3584 < image.length) (s : State) :
    loadImage image s = .refused .oversizeImage := if_neg (by omega)

/-- The one next state the loader answers. -/
theorem loadImage_next {s t : State} {image : List Byte} (h : loadImage image s = .next t) :
    t = writeBytes ((List.range image.length).map (0x200 + ·)) image s := by
  unfold loadImage at h
  split at h <;> cases h
  rfl

/-- The loader leaves each byte of the image at its address from 0x200 up (R39). -/
theorem readByte_loadImage_inside {s t : State} {image : List Byte} (h : loadImage image s = .next t) (k : Nat)
    (hk : k < image.length) : readByte t (0x200 + k) = image[k] := by
  have hnodup : ((List.range image.length).map (0x200 + ·)).Nodup := List.nodup_range.map (add_right_injective 0x200)
  rw [loadImage_next h]
  have hbyte := readByte_writeBytes _ image s hnodup k (by simpa using hk) hk
  rwa [List.getElem_map, List.getElem_range] at hbyte

/-- The loader leaves every byte outside the image alone (R39). -/
theorem readByte_loadImage_outside {s t : State} {image : List Byte} (h : loadImage image s = .next t) {a : Nat}
    (ha : a < 0x200 ∨ 0x200 + image.length ≤ a) : readByte t a = readByte s a := by
  rw [loadImage_next h]
  refine readByte_writeBytes_of_notMem _ image s a fun hmem => ?_
  obtain ⟨k, hk, rfl⟩ := List.mem_map.1 hmem
  rw [List.mem_range] at hk
  omega

/-- Settles O26: the loader stores the image at distinct addresses from 0x200 up. -/
theorem loaderWritesImageAt200 : Obligations.LoaderWritesImageAt200 := by
  intro s image
  refine ⟨fun hfits => ?_, fun hover => loadImage_of_oversize hover s⟩
  have h := loadImage_of_fits hfits s
  exact ⟨_, h, readByte_loadImage_inside h, fun _ ha => readByte_loadImage_outside h ha, loadImage_frame h⟩

/-! ## A stored block, and the fetch after it -/

/-- `s` with the bytes `bs` stored from I up, each address mod 4096: what LD B,Vx and LD [I],Vx leave in memory where they raise
nothing (`exec_store`). -/
def storeBlock (bs : List Byte) (s : State) : State :=
  writeBytes ((List.range' s.i.toNat bs.length).map (· % 4096)) bs s

@[simp] theorem storeBlock_pc (bs : List Byte) (s : State) : (storeBlock bs s).pc = s.pc := writeBytes_pc _ _ _

@[simp] theorem storeBlock_cfg (bs : List Byte) (s : State) : (storeBlock bs s).cfg = s.cfg := writeBytes_cfg _ _ _

section
variable {bs : List Byte} {s : State} {i : Instr} {x : Nibble}

/-- An address the block reaches holds its byte of the block. -/
theorem readByte_storeBlock_reached (hlen : bs.length ≤ 4096) (hin : ¬ BlockOutOfBounds s bs.length) {k a : Nat}
    (hk : k < bs.length) (ha : (s.i.toNat + k) % 4096 = a) : readByte (storeBlock bs s) a = bs[k] :=
  (readByte_storedBlock hlen hin).1 k hk a (by rw [addr_of_inside hin hk, ha])

/-- An address the block does not reach holds its old byte. -/
theorem readByte_storeBlock_unreached (hlen : bs.length ≤ 4096) (hin : ¬ BlockOutOfBounds s bs.length) {a : Nat}
    (ha : ∀ k < bs.length, (s.i.toNat + k) % 4096 ≠ a) : readByte (storeBlock bs s) a = readByte s a :=
  (readByte_storedBlock hlen hin).2 a fun k hk => by simpa [addr_of_inside hin hk] using ha k hk

/-- A store instruction stores 3 bytes, or at most 16 (R92, R93). -/
theorem storedBytes_length_le (hi : i = .ldBVx x ∨ i = .ldMemIVx x) : (storedBytes s i).length ≤ 16 := by
  obtain rfl | rfl := hi
  · exact (by decide : 3 ≤ 16)
  · exact (regsUpTo_length x s).trans_le x.isLt

/-- A store instruction that raises nothing stores its block and goes on in sequence (R92, R93). -/
theorem exec_store (hi : i = .ldBVx x ∨ i = .ldMemIVx x) (hin : ¬ BlockOutOfBounds s (storedBytes s i).length) :
    exec i s = .next (advance (storeBlock (storedBytes s i) s)) := by
  have haddrs := addrs_of_inside hin
  obtain rfl | rfl := hi
  · have hlen : (storedBytes s (.ldBVx x)).length = 3 := rfl
    rw [hlen] at haddrs
    simp only [exec, execLdBVx, haddrs]
    rfl
  · have hlen : (storedBytes s (.ldMemIVx x)).length = x.toNat + 1 := regsUpTo_length x s
    simp only [exec, execLdMemIVx, ← hlen, haddrs]
    rfl

/-- The fetch after a stored block reads the block, in the word that follows in sequence (R48, R130). -/
theorem fetch_advance_storeBlock (h : s.cfg.addrPolicy = .wrap ∨ s.pc.toNat + 3 < 4096) :
    fetch (advance (storeBlock bs s)) = some (assemble
      (readByte (storeBlock bs s) ((s.pc + 2).toNat % 4096)) (readByte (storeBlock bs s) (((s.pc + 2).toNat + 1) % 4096))) := by
  have hnext : s.cfg.addrPolicy = .wrap ∨ (s.pc + 2).toNat + 1 < 4096 :=
    h.imp_right fun hpc => by rw [pc_add_two_toNat]; omega
  have hfetch := fetch_of_inside (s := advance (storeBlock bs s)) (by simpa using hnext)
  simpa only [readByte_advance, advance_pc, storeBlock_pc] using hfetch

end

theorem assemble_toNat_div (hi lo : Byte) : (assemble hi lo).toNat / 256 = hi.toNat := by
  rw [assemble_toNat]
  omega

theorem assemble_toNat_mod (hi lo : Byte) : (assemble hi lo).toNat % 256 = lo.toNat := by
  rw [assemble_toNat]
  omega

/-- Settles O54: the next fetch assembles the two bytes that memory holds after the store, and each is the block's where the
block reaches its address and the old byte where it does not. -/
theorem storeIsSeenByNextFetch : Obligations.StoreIsSeenByNextFetch := by
  intro s i x hi hin hpolicy
  have hlen : (storedBytes s i).length ≤ 4096 := (storedBytes_length_le hi).trans (by decide)
  refine ⟨_, _, exec_store hi hin, inSequence_advance (storeBlock_pc _ s), fetch_advance_storeBlock hpolicy, ?_⟩
  simp only [assemble_toNat_div, assemble_toNat_mod, advance_pc, storeBlock_pc]
  exact ⟨fun _ hk ha => congrArg _ (readByte_storeBlock_reached hlen hin hk ha),
    fun _ hk ha => congrArg _ (readByte_storeBlock_reached hlen hin hk ha),
    fun ha => congrArg _ (readByte_storeBlock_unreached hlen hin ha),
    fun ha => congrArg _ (readByte_storeBlock_unreached hlen hin ha)⟩

end Sys2Proof.Machine

namespace Sys2Proof

/-! ## Decoding what the encoder wrote -/

/-- Decoding inverts encoding, family by family: each format gives back its own fields (R52, R58, R65). -/
theorem decode_encode (i : Instr) : decode (encode i) = .instr i := by
  cases i with
  | cls | ret => decide
  | jpAddr nnn => simp [encode, decode_op1]
  | callAddr nnn => simp [encode, decode_op2]
  | seVxKk x kk => simp [encode, decode_op3]
  | sneVxKk x kk => simp [encode, decode_op4]
  | seVxVy x y => simp [encode, decode_op5, decodeFamily5]
  | ldVxKk x kk => simp [encode, decode_op6]
  | addVxKk x kk => simp [encode, decode_op7]
  | ldVxVy x y | orVxVy x y | andVxVy x y | xorVxVy x y | addVxVy x y | subVxVy x y | subnVxVy x y | shrVx x y | shlVx x y =>
    simp [encode, decode_op8, decodeFamily8]
  | sneVxVy x y => simp [encode, decode_op9, decodeFamily9]
  | ldIAddr nnn => simp [encode, decode_opA]
  | jpV0Addr nnn => simp [encode, decode_opB]
  | rndVxKk x kk => simp [encode, decode_opC]
  | drwVxVyN x y n => simp [encode, decode_opD]
  | skpVx x | sknpVx x => simp [encode, decode_opE, decodeFamilyE]
  | ldVxDT x | ldDTVx x | ldSTVx x | addIVx x | ldFVx x | ldBVx x | ldMemIVx x | ldVxMemI x | ldVxK x =>
    simp [encode, decode_opF, decodeFamilyF]

/-- Settles O1: `decode` is a left inverse of `encode`. -/
theorem decodeOfEncodeIsInstruction : Obligations.DecodeOfEncodeIsInstruction := decode_encode

/-- Settles O2: the fields of a word that decodes, put together again, are the word. -/
theorem encodeOfDecodedIsWord : Obligations.EncodeOfDecodedIsWord := fun _ _ => encode_of_decode

/-! ## The rows of the opcode map -/

/-- The row of the opcode map a verdict of the decoder names (R65), if it is an instruction. -/
def Decoded.row : Decoded → Option OpRow
  | .instr i => some i.row
  | .invalid _ => none

@[simp] theorem Decoded.row_instr (i : Instr) : (Decoded.instr i).row = some i.row := rfl

@[simp] theorem Decoded.row_invalid (w : Word) : (Decoded.invalid w).row = none := rfl

theorem Decoded.row_eq_some {d : Decoded} {r : OpRow} : d.row = some r ↔ ∃ i, d = .instr i ∧ i.row = r := by
  cases d <;> simp

/-- The family EncodeRow, over all instructions. -/
theorem encodeRow : ∀ i : Instr, Laws.EncodeRow.Statement i
  | .cls => Laws.EncodeRow.cls
  | .ret => Laws.EncodeRow.ret
  | .jpAddr nnn => Laws.EncodeRow.jpAddr nnn
  | .callAddr nnn => Laws.EncodeRow.callAddr nnn
  | .seVxKk x kk => Laws.EncodeRow.seVxKk x kk
  | .sneVxKk x kk => Laws.EncodeRow.sneVxKk x kk
  | .seVxVy x y => Laws.EncodeRow.seVxVy x y
  | .sneVxVy x y => Laws.EncodeRow.sneVxVy x y
  | .ldVxKk x kk => Laws.EncodeRow.ldVxKk x kk
  | .addVxKk x kk => Laws.EncodeRow.addVxKk x kk
  | .ldVxVy x y => Laws.EncodeRow.ldVxVy x y
  | .orVxVy x y => Laws.EncodeRow.orVxVy x y
  | .andVxVy x y => Laws.EncodeRow.andVxVy x y
  | .xorVxVy x y => Laws.EncodeRow.xorVxVy x y
  | .addVxVy x y => Laws.EncodeRow.addVxVy x y
  | .subVxVy x y => Laws.EncodeRow.subVxVy x y
  | .subnVxVy x y => Laws.EncodeRow.subnVxVy x y
  | .shrVx x y => Laws.EncodeRow.shrVx x y
  | .shlVx x y => Laws.EncodeRow.shlVx x y
  | .ldIAddr nnn => Laws.EncodeRow.ldIAddr nnn
  | .jpV0Addr nnn => Laws.EncodeRow.jpV0Addr nnn
  | .rndVxKk x kk => Laws.EncodeRow.rndVxKk x kk
  | .drwVxVyN x y n => Laws.EncodeRow.drwVxVyN x y n
  | .skpVx x => Laws.EncodeRow.skpVx x
  | .sknpVx x => Laws.EncodeRow.sknpVx x
  | .ldVxDT x => Laws.EncodeRow.ldVxDT x
  | .ldDTVx x => Laws.EncodeRow.ldDTVx x
  | .ldSTVx x => Laws.EncodeRow.ldSTVx x
  | .addIVx x => Laws.EncodeRow.addIVx x
  | .ldFVx x => Laws.EncodeRow.ldFVx x
  | .ldBVx x => Laws.EncodeRow.ldBVx x
  | .ldMemIVx x => Laws.EncodeRow.ldMemIVx x
  | .ldVxMemI x => Laws.EncodeRow.ldVxMemI x
  | .ldVxK x => Laws.EncodeRow.ldVxK x

/-- A word that decodes is selected by its instruction's own row (R58). -/
theorem row_selects_of_decode {w : Word} {i : Instr} (h : decode w = .instr i) : w &&& i.row.mask = i.row.value := by
  obtain ⟨-, hselects⟩ := encodeRow i
  rwa [encode_of_decode h] at hselects

/-! What the 34 rows have in common (R58): each value decodes to its own row, and each mask covers the fields that R57 reads in
the family of the value. -/

theorem decode_value_row : ∀ r ∈ opcodeMap, (decode r.value).row = some r := by decide

theorem opField_mask : ∀ r ∈ opcodeMap, opField r.mask = 0xF := by decide

theorem nField_mask : ∀ r ∈ opcodeMap, opField r.value ∈ [0x5, 0x8, 0x9] → nField r.mask = 0xF := by decide

theorem kkField_mask : ∀ r ∈ opcodeMap, opField r.value ∈ [0xE, 0xF] → kkField r.mask = 0xFF := by decide

theorem mask_eq_allOnes : ∀ r ∈ opcodeMap, opField r.value = 0x0 → r.mask = BitVec.allOnes 16 := by decide

section
variable {w m v : Word}

/-- A mask that covers `op` fixes `op` (R58). -/
theorem opField_of_and (h : w &&& m = v) (hm : opField m = 0xF) : opField w = opField v := by
  have hand : opField (w &&& m) = opField w &&& opField m := BitVec.extractLsb'_and
  rw [← h, hand, hm, Laws.EncodeRow.nibble_and_ones]

/-- A mask that covers `n` fixes `n` (R58). -/
theorem nField_of_and (h : w &&& m = v) (hm : nField m = 0xF) : nField w = nField v := by
  have hand : nField (w &&& m) = nField w &&& nField m := BitVec.extractLsb'_and
  rw [← h, hand, hm, Laws.EncodeRow.nibble_and_ones]

/-- A mask that covers `kk` fixes `kk` (R58). -/
theorem kkField_of_and (h : w &&& m = v) (hm : kkField m = 0xFF) : kkField w = kkField v := by
  have hand : kkField (w &&& m) = kkField w &&& kkField m := BitVec.extractLsb'_and
  rw [← h, hand, hm, Laws.EncodeRow.byte_and_ones]

/-! In families 0x5, 0x8 and 0x9 the low nibble alone decides the row (R57), in 0xE and 0xF the low byte. -/

theorem decodeFamily5_row_congr (h : nField w = nField v) : (decodeFamily5 w).row = (decodeFamily5 v).row := by
  simp [decodeFamily5, h, apply_ite Decoded.row, Instr.row]

theorem decodeFamily8_row_congr (h : nField w = nField v) : (decodeFamily8 w).row = (decodeFamily8 v).row := by
  simp [decodeFamily8, h, apply_ite Decoded.row, Instr.row]

theorem decodeFamily9_row_congr (h : nField w = nField v) : (decodeFamily9 w).row = (decodeFamily9 v).row := by
  simp [decodeFamily9, h, apply_ite Decoded.row, Instr.row]

theorem decodeFamilyE_row_congr (h : kkField w = kkField v) : (decodeFamilyE w).row = (decodeFamilyE v).row := by
  simp [decodeFamilyE, h, apply_ite Decoded.row, Instr.row]

theorem decodeFamilyF_row_congr (h : kkField w = kkField v) : (decodeFamilyF w).row = (decodeFamilyF v).row := by
  simp [decodeFamilyF, h, apply_ite Decoded.row, Instr.row]

/-- A word a row selects decodes to the same row as the row's value: they agree on `op` and on the subcode of its family. -/
theorem decode_row_eq_value_row {r : OpRow} (hr : r ∈ opcodeMap) (h : w &&& r.mask = r.value) :
    (decode w).row = (decode r.value).row := by
  have hop : opField w = opField r.value := opField_of_and h (opField_mask r hr)
  have hn (hv : opField r.value ∈ [0x5, 0x8, 0x9]) : nField w = nField r.value := nField_of_and h (nField_mask r hr hv)
  have hkk (hv : opField r.value ∈ [0xE, 0xF]) : kkField w = kkField r.value := kkField_of_and h (kkField_mask r hr hv)
  rcases nibble_cases (opField r.value) with e | e | e | e | e | e | e | e | e | e | e | e | e | e | e | e
  all_goals have e' := hop.trans e
  · rw [← h, mask_eq_allOnes r hr e, BitVec.and_allOnes]
  · rw [decode_op1 e, decode_op1 e']; rfl
  · rw [decode_op2 e, decode_op2 e']; rfl
  · rw [decode_op3 e, decode_op3 e']; rfl
  · rw [decode_op4 e, decode_op4 e']; rfl
  · rw [decode_op5 e, decode_op5 e', decodeFamily5_row_congr (hn (by simp [e]))]
  · rw [decode_op6 e, decode_op6 e']; rfl
  · rw [decode_op7 e, decode_op7 e']; rfl
  · rw [decode_op8 e, decode_op8 e', decodeFamily8_row_congr (hn (by simp [e]))]
  · rw [decode_op9 e, decode_op9 e', decodeFamily9_row_congr (hn (by simp [e]))]
  · rw [decode_opA e, decode_opA e']; rfl
  · rw [decode_opB e, decode_opB e']; rfl
  · rw [decode_opC e, decode_opC e']; rfl
  · rw [decode_opD e, decode_opD e']; rfl
  · rw [decode_opE e, decode_opE e', decodeFamilyE_row_congr (hkk (by simp [e]))]
  · rw [decode_opF e, decode_opF e', decodeFamilyF_row_congr (hkk (by simp [e]))]

/-- The row that selects a word is the row of what the word decodes to (R58, R65). -/
theorem decode_row_of_mem_opcodeMap {r : OpRow} (hr : r ∈ opcodeMap) (h : w &&& r.mask = r.value) :
    (decode w).row = some r := by
  rw [decode_row_eq_value_row hr h, decode_value_row r hr]

end

/-- Settles O3: a row that selects a word is determined by the word, as the row of what the word decodes to. -/
theorem wordDecodesIffOneRowSelectsIt : Obligations.WordDecodesIffOneRowSelectsIt := by
  intro w
  refine ⟨⟨?_, ?_⟩, fun i => row_selects_of_decode, ?_⟩
  · rintro ⟨i, hi⟩
    obtain ⟨hmem, -⟩ := encodeRow i
    exact ⟨i.row, hmem, row_selects_of_decode hi⟩
  · rintro ⟨r, hr, h⟩
    obtain ⟨i, hi, -⟩ := Decoded.row_eq_some.1 (decode_row_of_mem_opcodeMap hr h)
    exact ⟨i, hi⟩
  · intro r hr r' hr' h h'
    exact Option.some.inj ((decode_row_of_mem_opcodeMap hr h).symm.trans (decode_row_of_mem_opcodeMap hr' h'))

/-! ## The invalid words -/

section
variable {w : Word}

theorem toNat_div_of_opField {op : Nibble} (h : opField w = op) : w.toNat / 4096 = op.toNat := by
  rw [← h, opField_toNat]
  have := w.isLt
  omega

/-- An arm of a family that gives an instruction is not taken by an invalid word. -/
theorem ite_instr_eq_invalid {c : Prop} [Decidable c] {i : Instr} {d : Decoded} :
    (if c then .instr i else d) = Decoded.invalid w ↔ ¬ c ∧ d = .invalid w := by
  split <;> simp_all

theorem nField_eq_iff {n : Nibble} : nField w = n ↔ w.toNat % 16 = n.toNat := by
  rw [← BitVec.toNat_inj, nField_toNat]

theorem kkField_eq_iff {kk : Byte} : kkField w = kk ↔ w.toNat % 256 = kk.toNat := by
  rw [← BitVec.toNat_inj, kkField_toNat]

/-- Family 0x0 has two words, 00E0 and 00EE (D10, D11). -/
theorem decodeFamily0_eq_invalid : decodeFamily0 w = .invalid w ↔ w.toNat ≠ 0x00E0 ∧ w.toNat ≠ 0x00EE := by
  simp [decodeFamily0, ← BitVec.toNat_inj, ite_instr_eq_invalid]

theorem decodeFamily5_eq_invalid : decodeFamily5 w = .invalid w ↔ w.toNat % 16 ≠ 0 := by
  simp [decodeFamily5, nField_eq_iff]

/-- Family 0x8 has no low nibble from 8 to D, nor F (R57). -/
theorem decodeFamily8_eq_invalid :
    decodeFamily8 w = .invalid w ↔ w.toNat % 16 ∈ [0x8, 0x9, 0xA, 0xB, 0xC, 0xD, 0xF] := by
  simp only [decodeFamily8, ite_instr_eq_invalid, nField_eq_iff, BitVec.ofNat_eq_ofNat, BitVec.toNat_ofNat, ite_eq_right_iff,
    reduceCtorEq, imp_false, List.mem_cons, List.not_mem_nil, or_false]
  omega

theorem decodeFamily9_eq_invalid : decodeFamily9 w = .invalid w ↔ w.toNat % 16 ≠ 0 := by
  simp [decodeFamily9, nField_eq_iff]

theorem decodeFamilyE_eq_invalid : decodeFamilyE w = .invalid w ↔ w.toNat % 256 ∉ [0x9E, 0xA1] := by
  simp [decodeFamilyE, ite_instr_eq_invalid, kkField_eq_iff]

theorem decodeFamilyF_eq_invalid :
    decodeFamilyF w = .invalid w ↔ w.toNat % 256 ∉ [0x07, 0x0A, 0x15, 0x18, 0x1E, 0x29, 0x33, 0x55, 0x65] := by
  simp [decodeFamilyF, ite_instr_eq_invalid, kkField_eq_iff]

end

/-- Settles O4: the value of `op` picks one family, and the family's own words decide. -/
theorem invalidWordsByFamily : Obligations.InvalidWordsByFamily := by
  intro w
  rcases nibble_cases (opField w) with e | e | e | e | e | e | e | e | e | e | e | e | e | e | e | e
  all_goals rw [toNat_div_of_opField e]
  · rw [decode_op0 e, decodeFamily0_eq_invalid]; simp
  · rw [decode_op1 e]; simp
  · rw [decode_op2 e]; simp
  · rw [decode_op3 e]; simp
  · rw [decode_op4 e]; simp
  · rw [decode_op5 e, decodeFamily5_eq_invalid]; simp
  · rw [decode_op6 e]; simp
  · rw [decode_op7 e]; simp
  · rw [decode_op8 e, decodeFamily8_eq_invalid]; simp
  · rw [decode_op9 e, decodeFamily9_eq_invalid]; simp
  · rw [decode_opA e]; simp
  · rw [decode_opB e]; simp
  · rw [decode_opC e]; simp
  · rw [decode_opD e]; simp
  · rw [decode_opE e, decodeFamilyE_eq_invalid]; simp
  · rw [decode_opF e, decodeFamilyF_eq_invalid]; simp

/-- Settles O5: eight closed words, each evaluated. -/
theorem sampleWordsDecodeRight : Obligations.SampleWordsDecodeRight := by
  unfold Obligations.SampleWordsDecodeRight
  decide

/-! ## The bounds of R6 -/

/-- A configuration is well-formed exactly when it meets each bound of R6. -/
theorem Config.wellFormed_iff {cfg : Config} : cfg.wellFormed = true ↔
    cfg.fontBase + 80 ≤ 0x200 ∧ cfg.fontBase + 255 * 5 < 65536 ∧ cfg.fontData.length = 80 ∧
      1 ≤ cfg.fbW ∧ 1 ≤ cfg.fbH := by
  simp [Config.wellFormed, and_assoc]

end Sys2Proof

namespace Sys2Proof.Machine

/-! ## The step of a legal configuration -/

section
variable {s : State} {w : Word}

/-- With a legal configuration a step is the CORE's own, between the host's ticks and the host's inputs (R54). -/
theorem step_of_wellFormed (hcfg : s.cfg.wellFormed = true) : step s = endResult (stepCore (beginStep s)) := by
  rw [step, if_pos hcfg]

theorem stepCore_awaitKey {x : Nibble} (hrun : s.run = .awaitKey x) : stepCore s = .next (poll x s) := by
  simp only [stepCore, hrun]

theorem stepCore_of_fetchDecode_instr {i : Instr} (hrun : s.run = .running) (h : fetchDecode s = .instr i) :
    stepCore s = exec i s := by
  simp only [stepCore, hrun, h]

theorem stepCore_of_fetchDecode_error {t : State} (hrun : s.run = .running) (h : fetchDecode s = .error t) :
    stepCore s = .next t := by
  simp only [stepCore, hrun, h]

theorem fetchDecode_of_fetch_none (hf : fetch s = none) : fetchDecode s = .error (raise .outOfBoundsAddress 0x0000 s) := by
  simp only [fetchDecode, hf]

theorem fetchDecode_of_decode_invalid {w' : Word} (hf : fetch s = some w) (hd : decode w = .invalid w') :
    fetchDecode s = .error (raise .invalidOpcode w s) := by
  simp only [fetchDecode, hf, hd]

/-- The ticks before the step do not change what it fetches. -/
theorem fetch_beginStep (s : State) : fetch (beginStep s) = fetch s :=
  fetch_congr (beginStep_pc s) (beginStep_mem s) (beginStep_cfg s)

/-- A step whose fetch or decode raises ends in the halted state of that error (R55, R60). -/
theorem step_of_fetchDecode_error {t : State} (hcfg : s.cfg.wellFormed = true) (hrun : s.run = .running)
    (h : fetchDecode (beginStep s) = .error t) : step s = .next (endStep t) := by
  rw [step_of_wellFormed hcfg, stepCore_of_fetchDecode_error (by simpa using hrun) h, endResult]

end

/-- Settles O6: the ticks before the step leave RUN and the fetched word as they are. -/
theorem stepRunsDecodedInstruction : Obligations.StepRunsDecodedInstruction := by
  intro s w i hcfg hrun hf hd
  have hi : fetchDecode (beginStep s) = .instr i := fetchDecode_instr ((fetch_beginStep s).trans hf) hd
  rw [step_of_wellFormed hcfg, stepCore_of_fetchDecode_instr (by simpa using hrun) hi]

/-- Settles O7: `step` asks R6 first, and then runs the CORE by its run state. -/
theorem stepIsCoreStepOrRefusal : Obligations.StepIsCoreStepOrRefusal := by
  refine ⟨fun s => step_of_wellFormed, ?_, ?_⟩
  · intro s x hcfg hrun
    rw [step_of_wellFormed hcfg, stepCore_awaitKey (by simpa using hrun), endResult]
  · intro s hbad
    rw [step, if_neg (mt Config.wellFormed_iff.1 hbad)]

/-- Settles O10: the ticks before the step leave PC, V, the framebuffer and memory, and `raise` keeps them. -/
theorem invalidWordHaltsPrecisely : Obligations.InvalidWordHaltsPrecisely := by
  intro s w hcfg hrun hf hd
  have herr := fetchDecode_of_decode_invalid ((fetch_beginStep s).trans hf) hd
  exact ⟨_, step_of_fetchDecode_error hcfg hrun herr, raise_haltedBy _ _ _, by simp, by simp, by simp, by simp,
    readByte_congr (by simp) (by simp)⟩

/-- Settles O11: the word at 0xFFF has no second byte, so the fetch raises before anything is decoded. -/
theorem fetchOutOfBoundsHalts : Obligations.FetchOutOfBoundsHalts := by
  intro s hcfg hrun hpolicy hpc
  have hf : fetch (beginStep s) = none := by
    rw [fetch_beginStep, fetch_fault hpolicy, if_neg (by omega)]
  exact ⟨_, step_of_fetchDecode_error hcfg hrun (fetchDecode_of_fetch_none hf), raise_haltedBy _ _ _, by simp, by simp⟩

end Sys2Proof.Machine

namespace Sys2Proof.Machine

/-! ## The stack pointer and the return stack -/

section
variable {s : State}

/-- SP counts one entry more after a push; below 16 it does not wrap (R19, R68). -/
theorem sp_add_one_toNat (h : s.sp.toNat < 16) : (s.sp + 1).toNat = s.sp.toNat + 1 := by bv_omega

/-- SP counts one entry less after a pop (R19, R66). -/
theorem sp_sub_one_toNat {k : Nat} (h : s.sp.toNat = k + 1) : (s.sp - 1).toNat = k := by bv_omega

/-- RET with `k + 1` entries held returns to the entry numbered `k` (R66). -/
theorem exec_ret_pops {k : Nat} (h : s.sp.toNat = k + 1) (hk : k < 16) :
    exec .ret s = .next { s with sp := s.sp - 1, pc := s.stack[k] } := by
  have htop : (s.sp - 1).toNat = k := sp_sub_one_toNat h
  have hne : s.sp ≠ 0 := fun h0 => by simp [h0] at h
  simp only [exec, execRet, if_neg hne, popPC_of_lt (htop.trans_lt hk), htop]

/-- RET with nothing pushed (R20, R66). -/
theorem exec_ret_underflows (h : s.sp.toNat = 0) : exec .ret s = .next (raise .stackUnderflow (encode .ret) s) :=
  if_pos (BitVec.eq_of_toNat_eq h)

/-- CALL with a free entry stores the post-fetch PC in it and jumps (R68). -/
theorem exec_callAddr_pushes (nnn : Addr12) (h : s.sp.toNat < 16) :
    exec (.callAddr nnn) s =
      .next { s with stack := s.stack.set s.sp.toNat (s.pc + 2) h, sp := s.sp + 1, pc := zext16 nnn } := by
  have hne : s.sp ≠ 16 := fun h16 => by simp [h16] at h
  simp only [exec, execCallAddr, if_neg hne, push_of_lt _ h, jump]

/-- CALL with 16 entries held (R68, C1). -/
theorem exec_callAddr_overflows (nnn : Addr12) (h : s.sp.toNat = 16) :
    exec (.callAddr nnn) s = .next (raise .stackOverflow (encode (.callAddr nnn)) s) :=
  if_pos (BitVec.eq_of_toNat_eq h)

/-- RET after CALL undoes all of the CALL but the entry it pushed: the two changes of SP cancel, and the popped entry is the one
pushed. -/
theorem exec_callAddr_then_ret (nnn : Addr12) (h : s.sp.toNat < 16) :
    ∃ t, exec (.callAddr nnn) s = .next t ∧
      exec .ret t = .next { s with stack := s.stack.set s.sp.toNat (s.pc + 2) h, pc := s.pc + 2 } := by
  refine ⟨_, exec_callAddr_pushes nnn h, ?_⟩
  rw [exec_ret_pops (sp_add_one_toNat h) h]
  simp

end

/-- Settles O36: the state after CALL and RET, written out, is `s` but for PC and the pushed entry. -/
theorem callThenRetReturnsAfterCall : Obligations.CallThenRetReturnsAfterCall := by
  intro s nnn h
  obtain ⟨t, hcall, hret⟩ := exec_callAddr_then_ret nnn h
  exact ⟨t, _, hcall, hret, pc_add_two_toNat s, rfl, fun _ hk hne => Vector.getElem_set_ne h hk hne.symm⟩

/-- Settles O34: by whether an entry is held. -/
theorem retPopsOrUnderflows : Obligations.RetPopsOrUnderflows := by
  intro s
  constructor
  · intro k hk hsp
    exact ⟨_, exec_ret_pops hsp hk, sp_sub_one_toNat hsp, rfl, rfl, fun _ => rfl⟩
  · intro hsp
    exact ⟨_, exec_ret_underflows hsp, raise_haltedBy _ _ _⟩

/-- Settles O35: by whether an entry is free. -/
theorem callPushesOrOverflows : Obligations.CallPushesOrOverflows := by
  intro s nnn
  constructor
  · intro hsp
    have hpushed : ((s.stack.set s.sp.toNat (s.pc + 2) hsp)[s.sp.toNat]).toNat = (s.pc.toNat + 2) % 65536 := by
      rw [Vector.getElem_set_self, pc_add_two_toNat]
    exact ⟨_, exec_callAddr_pushes nnn hsp, sp_add_one_toNat hsp, hpushed,
      fun _ hk hne => Vector.getElem_set_ne hsp hk hne.symm, zext16_toNat nnn, rfl, fun _ => rfl⟩
  · intro hsp
    exact ⟨_, exec_callAddr_overflows nnn hsp, raise_haltedBy _ _ _⟩

/-! ## Jumps and skips -/

theorem jump_onlyPC (target : Word) (s : State) : OnlyPC s (jump target s) := ⟨rfl, fun _ => rfl⟩

theorem skipIf_onlyPC (c : Bool) (s : State) : OnlyPC s (skipIf c s) := ⟨rfl, fun _ => rfl⟩

/-- The target of JP V0,addr: an address and a byte add up to less than 2^16, so the sum is not reduced (R73). -/
theorem zext16_add_zext16Byte_toNat (a : Addr12) (b : Byte) : (zext16 a + zext16Byte b).toNat = a.toNat + b.toNat := by
  have ha := a.isLt
  have hb := b.isLt
  rw [BitVec.toNat_add, zext16_toNat, zext16Byte_toNat, Nat.mod_eq_of_lt (by omega)]

/-- A skip on two equal bytes (R69, R71). -/
theorem skipIf_beq_pc_toNat (a b : Byte) (s : State) :
    (skipIf (a == b) s).pc.toNat = (s.pc.toNat + if a.toNat = b.toNat then 4 else 2) % 65536 := by
  simp only [skipIf_pc_toNat, beq_iff_eq, BitVec.toNat_inj]

/-- A skip on two different bytes (R70, R72). -/
theorem skipIf_bne_pc_toNat (a b : Byte) (s : State) :
    (skipIf (a != b) s).pc.toNat = (s.pc.toNat + if a.toNat = b.toNat then 2 else 4) % 65536 := by
  simp only [skipIf_pc_toNat, bne_iff_ne, ne_eq, ite_not, BitVec.toNat_inj]

/-- Settles O37: both are one `jump`. -/
theorem jumpsSetPC : Obligations.JumpsSetPC := fun s nnn =>
  ⟨⟨_, rfl, zext16_toNat nnn, jump_onlyPC _ s⟩, _, rfl, zext16_add_zext16Byte_toNat nnn (getV s 0x0), jump_onlyPC _ s⟩

/-- Settles O38: both are one `skipIf`, on Vx and the immediate. -/
theorem skipsOnImmediate : Obligations.SkipsOnImmediate := fun s x kk =>
  ⟨⟨_, rfl, skipIf_beq_pc_toNat (getV s x) kk s, skipIf_onlyPC _ s⟩,
    _, rfl, skipIf_bne_pc_toNat (getV s x) kk s, skipIf_onlyPC _ s⟩

/-- Settles O39: both are one `skipIf`, on Vx and Vy. -/
theorem skipsOnRegisters : Obligations.SkipsOnRegisters := fun s x y =>
  ⟨⟨_, rfl, skipIf_beq_pc_toNat (getV s x) (getV s y) s, skipIf_onlyPC _ s⟩,
    _, rfl, skipIf_bne_pc_toNat (getV s x) (getV s y) s, skipIf_onlyPC _ s⟩

end Sys2Proof.Machine

namespace Sys2Proof.Machine

/-! ## One register written, then the fetch-time advance -/

section
variable (x : Nibble) (b : Byte) (s : State)

theorem advance_setV_onlyRegsAndPC : OnlyRegsAndPC s (advance (setV x b s)) := ⟨rfl, fun _ => rfl⟩

theorem getV_advance_setV (r : Nibble) : getV (advance (setV x b s)) r = if r = x then b else getV s r := by
  rw [getV_advance, getV_setV]

/-- The shape of an instruction that loads Vx: the value in every register, and the frame. -/
theorem advance_setV_loads :
    (∀ r, getV (advance (setV x b s)) r = if r = x then b else getV s r) ∧ InSequence s (advance (setV x b s)) ∧
      OnlyRegsAndPC s (advance (setV x b s)) :=
  ⟨getV_advance_setV x b s, inSequence_advance rfl, advance_setV_onlyRegsAndPC x b s⟩

/-- The shape of an instruction that is described bit by bit: `bits` are the bits of the byte written to Vx. -/
theorem advance_setV_bits {bits : Nat → Bool} (hbits : ∀ j, b.getLsbD j = bits j) :
    (∀ j, (getV (advance (setV x b s)) x).getLsbD j = bits j) ∧
      (∀ r, r ≠ x → getV (advance (setV x b s)) r = getV s r) ∧ InSequence s (advance (setV x b s)) ∧
      OnlyRegsAndPC s (advance (setV x b s)) := by
  obtain ⟨hreg, hseq, hframe⟩ := advance_setV_loads x b s
  refine ⟨fun j => ?_, fun r hr => ?_, hseq, hframe⟩
  · rw [hreg, if_pos rfl, hbits]
  · rw [hreg, if_neg hr]

end

/-- Settles O40: the three are one write to Vx, of `kk`, of Vy and of DT. -/
theorem loadsWriteDestination : Obligations.LoadsWriteDestination := fun s x y kk =>
  ⟨⟨_, rfl, advance_setV_loads x kk s⟩, ⟨_, rfl, advance_setV_loads x (getV s y) s⟩, _, rfl, advance_setV_loads x s.dt s⟩

/-- Settles O41: addition of bytes is addition mod 256. -/
theorem addImmediateWrapsWithoutFlag : Obligations.AddImmediateWrapsWithoutFlag := by
  intro s x kk
  obtain ⟨hreg, hseq, hframe⟩ := advance_setV_loads x (getV s x + kk) s
  refine ⟨_, rfl, fun r => ?_, hseq, hframe⟩
  rw [hreg, apply_ite BitVec.toNat, BitVec.toNat_add]

/-- Settles O42: the three are one write to Vx, of a byte known bit by bit. -/
theorem bitwiseCombinesIntoVx : Obligations.BitwiseCombinesIntoVx := fun s x y =>
  ⟨⟨_, rfl, advance_setV_bits x (getV s x ||| getV s y) s fun _ => BitVec.getLsbD_or⟩,
    ⟨_, rfl, advance_setV_bits x (getV s x &&& getV s y) s fun _ => BitVec.getLsbD_and⟩,
    _, rfl, advance_setV_bits x (getV s x ^^^ getV s y) s fun _ => BitVec.getLsbD_xor⟩

/-- Settles O47: the byte written to Vx is the bitwise AND of the random byte and the mask. -/
theorem rndWritesMaskedRandomByte : Obligations.RndWritesMaskedRandomByte := fun s x kk =>
  ⟨_, rfl, advance_setV_bits x (s.inputs.rnd &&& kk) s fun _ => BitVec.getLsbD_and⟩

/-! ## A result and its flag, then the fetch-time advance -/

theorem advance_setResultThenFlag_onlyRegsAndPC (x : Nibble) (result flag : Byte) (s : State) :
    OnlyRegsAndPC s (advance (setResultThenFlag x result flag s)) := ⟨rfl, fun _ => rfl⟩

/-- The shape of an instruction that writes a result and then a flag (R75), in numbers. -/
theorem advance_setResultThenFlag_toNat (x : Nibble) (s : State) {result flag : Byte} {n f : Nat}
    (hresult : result.toNat = n) (hflag : flag.toNat = f) :
    (∀ r, (getV (advance (setResultThenFlag x result flag s)) r).toNat =
      if r = 0xF then f else if r = x then n else (getV s r).toNat) ∧
      InSequence s (advance (setResultThenFlag x result flag s)) ∧
      OnlyRegsAndPC s (advance (setResultThenFlag x result flag s)) := by
  refine ⟨fun r => ?_, inSequence_advance rfl, advance_setResultThenFlag_onlyRegsAndPC x result flag s⟩
  rw [getV_advance, getV_setResultThenFlag, apply_ite BitVec.toNat, apply_ite BitVec.toNat, hresult, hflag]

/-- The carry as a number (R82). -/
theorem carryFlag_toNat (a b : Byte) : (carryFlag a b).toNat = if a.toNat + b.toNat > 255 then 1 else 0 := by
  simp only [carryFlag, flagByte_toNat, decide_eq_true_eq]

/-- The NOT-borrow as a number (R83, R84). -/
theorem notBorrowFlag_toNat (a b : Byte) : (notBorrowFlag a b).toNat = if a.toNat ≥ b.toNat then 1 else 0 := by
  simp only [notBorrowFlag, flagByte_toNat, decide_eq_true_eq]

/-- Subtraction of bytes as a number, without a negative intermediate (R83, R84). -/
theorem byte_sub_toNat (a b : Byte) : (a - b).toNat = (a.toNat + 256 - b.toNat) % 256 := by
  have hb := b.isLt
  rw [BitVec.toNat_sub]
  omega

/-- Old bit 0 as a number (R85). -/
theorem shiftedOutRight_toNat (a : Byte) : (shiftedOutRight a).toNat = a.toNat % 2 := Nat.and_one_is_mod _

/-- Old bit 7 as a number (R86). -/
theorem shiftedOutLeft_toNat (a : Byte) : (shiftedOutLeft a).toNat = a.toNat / 128 := by
  rw [shiftedOutLeft, BitVec.toNat_ushiftRight, Nat.shiftRight_eq_div_pow]

/-- A byte shifted right by one as a number (R85). -/
theorem byte_shiftRight_one_toNat (a : Byte) : (a >>> 1).toNat = a.toNat / 2 := by
  rw [BitVec.toNat_ushiftRight, Nat.shiftRight_one]

/-- A byte shifted left by one as a number (R86). -/
theorem byte_shiftLeft_one_toNat (a : Byte) : (a <<< 1).toNat = 2 * a.toNat % 256 := by
  rw [BitVec.toNat_shiftLeft, Nat.shiftLeft_eq, Nat.mul_comm]

/-- Settles O43: the sum of the two bytes, then their carry. -/
theorem addWritesSumThenCarry : Obligations.AddWritesSumThenCarry := fun s x y =>
  ⟨_, rfl, advance_setResultThenFlag_toNat x s (BitVec.toNat_add _ _) (carryFlag_toNat (getV s x) (getV s y))⟩

/-- Settles O44: Vx less Vy, then the NOT-borrow of that. -/
theorem subWritesDifferenceThenNotBorrow : Obligations.SubWritesDifferenceThenNotBorrow := fun s x y =>
  ⟨_, rfl, advance_setResultThenFlag_toNat x s (byte_sub_toNat _ _) (notBorrowFlag_toNat (getV s x) (getV s y))⟩

/-- Settles O45: Vy less Vx, then the NOT-borrow of that. -/
theorem subnWritesDifferenceThenNotBorrow : Obligations.SubnWritesDifferenceThenNotBorrow := fun s x y =>
  ⟨_, rfl, advance_setResultThenFlag_toNat x s (byte_sub_toNat _ _) (notBorrowFlag_toNat (getV s y) (getV s x))⟩

/-- Settles O46: Vx shifted by one, then the bit shifted out; neither reads Vy. -/
theorem shiftsWriteShiftedOutBit : Obligations.ShiftsWriteShiftedOutBit := fun s x _ =>
  ⟨⟨_, rfl, advance_setResultThenFlag_toNat x s (byte_shiftRight_one_toNat _) (shiftedOutRight_toNat (getV s x))⟩,
    _, rfl, advance_setResultThenFlag_toNat x s (byte_shiftLeft_one_toNat _) (shiftedOutLeft_toNat (getV s x))⟩

end Sys2Proof.Machine

namespace Sys2Proof.Machine

/-! ## The index register -/

section
variable {x : Nibble} {s : State}

/-- The glyph's address as a number (R91). -/
theorem glyphAddress_toNat (cfg : Config) (vx : Byte) :
    (glyphAddress cfg vx).toNat = (cfg.fontBase + 5 * vx.toNat) % 65536 := BitVec.toNat_ofNat _ _

/-- The sum of `ADD I,Vx` as a number: it is below 4096, so its 16 bits hold it (R90). -/
theorem indexSum_toNat (i : Word) (vx : Byte) : (indexSum i vx).toNat = (i.toNat + vx.toNat) % 4096 := by
  rw [indexSum, BitVec.toNat_ofNat]
  omega

/-- The overflow past 0xFFF as a number (R90). -/
theorem indexOverflowFlag_toNat (i : Word) (vx : Byte) :
    (indexOverflowFlag i vx).toNat = if i.toNat + vx.toNat > 0xFFF then 1 else 0 := by
  simp only [indexOverflowFlag, flagByte_toNat, decide_eq_true_eq]

/-- `ADD I,Vx` where ADD_I_SETS_VF is false (R90, D7). -/
theorem exec_addIVx_withoutFlag (h : s.cfg.addISetsVF = false) :
    exec (.addIVx x) s = .next (advance { s with i := indexSum s.i (getV s x) }) := by
  simp only [exec, execAddIVx, h, Bool.false_eq_true, if_false]

/-- `ADD I,Vx` where ADD_I_SETS_VF is true (R90, log entry 22). -/
theorem exec_addIVx_withFlag (h : s.cfg.addISetsVF = true) :
    exec (.addIVx x) s =
      .next (advance (setVF (indexOverflowFlag s.i (getV s x)) { s with i := indexSum s.i (getV s x) })) := by
  simp only [exec, execAddIVx, h, if_true]

end

/-- Settles O49: by the value of ADD_I_SETS_VF; the flag is computed from I and Vx as they were. -/
theorem addIndexWrapsAt4096 : Obligations.AddIndexWrapsAt4096 := by
  intro s x
  have hsum := indexSum_toNat s.i (getV s x)
  cases hvf : s.cfg.addISetsVF with
  | false =>
    exact ⟨_, exec_addIVx_withoutFlag hvf, hsum, fun _ => rfl, nofun, inSequence_advance rfl, rfl, fun _ => rfl⟩
  | true =>
    refine ⟨_, exec_addIVx_withFlag hvf, hsum, nofun, fun _ r => ?_, inSequence_advance rfl, rfl, fun _ => rfl⟩
    rw [getV_advance, setVF, getV_setV, apply_ite BitVec.toNat, indexOverflowFlag_toNat]
    rfl

/-- Settles O48: both are one write to I, of the address in the word and of the glyph's address. -/
theorem indexLoadsWriteI : Obligations.IndexLoadsWriteI := fun s nnn x =>
  ⟨⟨_, rfl, zext16_toNat nnn, inSequence_advance rfl, rfl, fun _ => rfl⟩,
    _, rfl, glyphAddress_toNat s.cfg (getV s x), inSequence_advance rfl, rfl, fun _ => rfl⟩

/-! ## The block transfers -/

section
variable {i : Instr} {x : Nibble} {s : State}

/-- A stored block and the fetch-time advance change memory and PC only. -/
theorem advance_storeBlock_frame (bs : List Byte) (s : State) :
    advance (storeBlock bs s) = { s with mem := (advance (storeBlock bs s)).mem, pc := (advance (storeBlock bs s)).pc } := by
  rw [storeBlock, writeBytes_frame]
  rfl

/-- The shape of a store instruction that raises nothing: its bytes at its addresses, and the frame (R92, R93). -/
theorem exec_store_writes (hi : i = .ldBVx x ∨ i = .ldMemIVx x) (hin : ¬ BlockOutOfBounds s (storedBytes s i).length) :
    ∃ t, exec i s = .next t ∧
      (∀ k (hk : k < (storedBytes s i).length) a, addr s.cfg (s.i.toNat + k) = some a →
        readByte t a = (storedBytes s i)[k]) ∧
      (∀ a, (∀ k < (storedBytes s i).length, addr s.cfg (s.i.toNat + k) ≠ some a) → readByte t a = readByte s a) ∧
      InSequence s t ∧ t = { s with mem := t.mem, pc := t.pc } := by
  obtain ⟨hstored, hkept⟩ := readByte_storedBlock ((storedBytes_length_le hi).trans (by decide)) hin
  exact ⟨_, exec_store hi hin, hstored, hkept, inSequence_advance (storeBlock_pc _ s), advance_storeBlock_frame _ s⟩

/-- A store instruction one of whose addresses raises (R92, R93, R109). -/
theorem exec_store_raises (hi : i = .ldBVx x ∨ i = .ldMemIVx x) (hout : BlockOutOfBounds s (storedBytes s i).length) :
    exec i s = .next (raise .outOfBoundsAddress (encode i) s) := by
  have haddrs := addrs_of_outOfBounds hout
  obtain rfl | rfl := hi
  · rw [show (storedBytes s (.ldBVx x)).length = 3 from rfl] at haddrs
    simp only [exec, execLdBVx, haddrs]
  · rw [show (storedBytes s (.ldMemIVx x)).length = x.toNat + 1 from regsUpTo_length x s] at haddrs
    simp only [exec, execLdMemIVx, haddrs]

/-- The bytes LD Vx,[I] reads where it raises nothing: `x + 1` of them from I up, each address mod 4096 (R94). -/
def loadedBytes (s : State) (x : Nibble) : List Byte :=
  ((List.range' s.i.toNat (x.toNat + 1)).map (· % 4096)).map (readByte s)

theorem loadedBytes_length (s : State) (x : Nibble) : (loadedBytes s x).length = x.toNat + 1 := by simp [loadedBytes]

theorem loadedBytes_getD {k : Nat} (hk : k ≤ x.toNat) (b : Byte) :
    (loadedBytes s x).getD k b = readByte s ((s.i.toNat + k) % 4096) := by
  rw [List.getD_eq_getElem _ _ (by rw [loadedBytes_length]; omega)]
  simp [loadedBytes]

/-- LD Vx,[I] that raises nothing loads its bytes from V0 up and goes on in sequence (R94). -/
theorem exec_ldVxMemI_inside (hin : ¬ BlockOutOfBounds s (x.toNat + 1)) :
    exec (.ldVxMemI x) s = .next (advance (loadRegs 0 (loadedBytes s x) s)) := by
  simp only [exec, execLdVxMemI, addrs_of_inside hin, loadedBytes]

/-- LD Vx,[I] one of whose addresses raises (R94, R109). -/
theorem exec_ldVxMemI_raises (hout : BlockOutOfBounds s (x.toNat + 1)) :
    exec (.ldVxMemI x) s = .next (raise .outOfBoundsAddress (encode (.ldVxMemI x)) s) := by
  simp only [exec, execLdVxMemI, addrs_of_outOfBounds hout]

/-- A register up to Vx holds the byte loaded for it (R94). -/
theorem getV_loadRegs_loadedBytes {r : Nibble} (hr : r.toNat ≤ x.toNat) :
    getV (loadRegs 0 (loadedBytes s x) s) r = readByte s ((s.i.toNat + r.toNat) % 4096) := by
  have hlen := loadedBytes_length s x
  have hx := x.isLt
  rw [getV_loadRegs 0 _ s r (by omega), if_pos (Nat.zero_le _), Nat.sub_zero, loadedBytes_getD hr]

/-- Loaded registers and the fetch-time advance change V and PC only. -/
theorem advance_loadRegs_onlyRegsAndPC (k : Nat) (bs : List Byte) (s : State) :
    OnlyRegsAndPC s (advance (loadRegs k bs s)) := by
  refine ⟨?_, readByte_congr (by simp) (by simp)⟩
  rw [loadRegs_frame]
  rfl

end

/-- Settles O50: the block that LD B,Vx stores is the three digits. -/
theorem ldBStoresDecimalDigits : Obligations.LdBStoresDecimalDigits := by
  intro s x
  have hi : Instr.ldBVx x = .ldBVx x ∨ Instr.ldBVx x = .ldMemIVx x := .inl rfl
  constructor
  · intro hin
    obtain ⟨t, ht, hstored, hkept, hseq, hframe⟩ := exec_store_writes hi hin
    have hdigit {k n a : Nat} (hk : k < 3) (hn : (decimalDigits (getV s x))[k].toNat = n)
        (ha : addr s.cfg (s.i.toNat + k) = some a) : (readByte t a).toNat = n :=
      (congrArg _ (hstored k hk a ha)).trans hn
    exact ⟨t, ht, fun _ => hdigit (k := 0) (by decide) (BitVec.toNat_udiv ..),
      fun _ => hdigit (k := 1) (by decide) (by simp [decimalDigits]),
      fun _ => hdigit (k := 2) (by decide) (BitVec.toNat_umod ..), hkept, hseq, hframe⟩
  · exact fun hout => ⟨_, exec_store_raises hi hout, raise_haltedBy _ _ _⟩

/-- Settles O51: the block that LD [I],Vx stores is the registers V0 to Vx. -/
theorem blockStoreWritesV0ToVx : Obligations.BlockStoreWritesV0ToVx := by
  intro s x
  have hi : Instr.ldMemIVx x = .ldBVx x ∨ Instr.ldMemIVx x = .ldMemIVx x := .inr rfl
  have hlen : (storedBytes s (.ldMemIVx x)).length = x.toNat + 1 := regsUpTo_length x s
  rw [← hlen]
  constructor
  · intro hin
    obtain ⟨t, ht, hstored, hkept, hseq, hframe⟩ := exec_store_writes hi hin
    refine ⟨t, ht, fun r a hr ha => ?_, fun a ha => hkept a fun k hk => ha k (by omega), hseq, hframe⟩
    calc readByte t a
      _ = (regsUpTo x s)[r.toNat]'(by rw [regsUpTo_length]; omega) := hstored r.toNat (by omega) a ha
      _ = getV s r := by rw [regsUpTo_getElem, BitVec.ofNat_toNat, BitVec.setWidth_eq]
  · exact fun hout => ⟨_, exec_store_raises hi hout, raise_haltedBy _ _ _⟩

/-- Settles O52: a register up to Vx gets its byte of the block, and the block ends at Vx. -/
theorem blockLoadReadsV0ToVx : Obligations.BlockLoadReadsV0ToVx := by
  intro s x
  constructor
  · intro hin
    refine ⟨_, exec_ldVxMemI_inside hin, fun r a hr ha => ?_,
      fun r hr => getV_loadRegs_above hr (loadedBytes_length s x) s, inSequence_advance (by simp),
      advance_loadRegs_onlyRegsAndPC _ _ s⟩
    rw [getV_advance, getV_loadRegs_loadedBytes hr, addr_eq_mod ha]
  · exact fun hout => ⟨_, exec_ldVxMemI_raises hout, raise_haltedBy _ _ _⟩

/-- Settles O53: by O52 a register gets the byte at its address, where by O51 the store left the register; the store keeps I, so
the addresses are the same. -/
theorem blockStoreThenLoadRestores : Obligations.BlockStoreThenLoadRestores := by
  intro s t x v hin ht
  obtain ⟨t', ht', hstored, -, -, hframe⟩ := (blockStoreWritesV0ToVx s x).1 hin
  cases ht.symm.trans ht'
  have hcfg : t.cfg = s.cfg := by rw [hframe]
  have hindex : t.i = s.i := by rw [hframe]
  have hin' : ¬ BlockOutOfBounds { t with v := v } (x.toNat + 1) := by simpa only [BlockOutOfBounds, hcfg, hindex] using hin
  obtain ⟨u, hu, hloaded, -⟩ := (blockLoadReadsV0ToVx { t with v := v } x).1 hin'
  refine ⟨u, hu, fun r hr => ?_⟩
  have ha : addr s.cfg (s.i.toNat + r.toNat) = some ((s.i.toNat + r.toNat) % 4096) := addr_of_inside hin (by omega)
  calc getV u r
    _ = readByte t ((s.i.toNat + r.toNat) % 4096) := hloaded r _ hr (by simpa only [hcfg, hindex] using ha)
    _ = getV s r := hstored r _ hr ha

end Sys2Proof.Machine

namespace Sys2Proof.Machine

/-! ## Drawing as a fold -/

/-- One pixel of a drawing whose sprite bit is 1: it is flipped, and a collision is noted if it was on (R96). -/
def hitPixel (d : Framebuffer × Bool) (p : Pixel) : Framebuffer × Bool := (flipPixel d.1 p, d.2 || lit d.1 p)

theorem drawPixels_eq_foldl (ps : List Pixel) (fb : Framebuffer) (c : Bool) :
    drawPixels ps fb c = ps.foldl hitPixel (fb, c) := by
  induction ps generalizing fb c with
  | nil => rfl
  | cons p ps ih => exact ih (flipPixel fb p) (c || lit fb p)

/-- A drawing's framebuffer as the grid of R96's pseudocode, beside the collision. -/
def asGrid (d : Framebuffer × Bool) : (Nat → Nat → Bool) × Bool := (fun c r => lit d.1 (c, r), d.2)

/-- A visit of R96's inner loop hits the pixel of a set bit, and does nothing for a clear one. -/
theorem refVisit_asGrid (cfg : Config) (x0 y0 : Byte) (d : Framebuffer × Bool) (c r : Nat) (b : Bool) :
    refVisit cfg.fbW cfg.fbH x0.toNat y0.toNat (asGrid d) c r b =
      asGrid (if b then hitPixel d (spritePixel cfg x0 y0 c r) else d) := by
  cases b with
  | false => rfl
  | true =>
    refine Prod.ext (funext fun c' => funext fun r' => ?_) rfl
    simp only [refVisit, asGrid, hitPixel, if_true, lit_flipPixel, spritePixel, Prod.mk.injEq]
    by_cases h : c' = (x0.toNat + c) % cfg.fbW ∧ r' = (y0.toNat + r) % cfg.fbH
    · obtain ⟨rfl, rfl⟩ := h
      rfl
    · rw [if_neg h, if_neg h]

/-- R96's inner loop, over the eight columns of a row, hits the row's pixels. -/
theorem refRow_asGrid (cfg : Config) (x0 y0 : Byte) (row : Byte) (d : Framebuffer × Bool) (r : Nat) :
    (List.range 8).foldl (fun g c => refVisit cfg.fbW cfg.fbH x0.toNat y0.toNat g c r (spriteBit cfg.spriteBitOrder row c))
      (asGrid d) = asGrid ((rowPixels cfg x0 y0 r row).foldl hitPixel d) := by
  rw [rowPixels, List.foldl_map, List.foldl_filter]
  exact List.foldl_hom asGrid fun d c => refVisit_asGrid cfg x0 y0 d c r _

/-- A sprite's pixels, row number by row number. -/
theorem spritePixels_map_range' (cfg : Config) (x0 y0 : Byte) (row : Nat → Byte) (r n : Nat) :
    spritePixels cfg x0 y0 r ((List.range' r n).map row) =
      (List.range' r n).flatMap fun j => rowPixels cfg x0 y0 j (row j) := by
  induction n generalizing r with
  | zero => rfl
  | succ n ih => rw [List.range'_succ, List.map_cons, spritePixels, ih, List.flatMap_cons]

/-- R96's two loops, on the grid of a framebuffer, are the drawing of the sprite's pixels. -/
theorem refDraw_eq_drawPixels (cfg : Config) (x0 y0 : Byte) (n : Nat) (row : Nat → Byte) (fb : Framebuffer) :
    refDraw cfg.fbW cfg.fbH x0.toNat y0.toNat n (fun r c => spriteBit cfg.spriteBitOrder (row r) c) (fun c r => lit fb (c, r)) =
      asGrid (drawPixels (spritePixels cfg x0 y0 0 ((List.range n).map row)) fb false) := by
  rw [refDraw, List.range_eq_range' (n := n), drawPixels_eq_foldl, spritePixels_map_range', List.foldl_flatMap]
  exact List.foldl_hom asGrid (init := (fb, false)) fun d r => refRow_asGrid cfg x0 y0 (row r) d r

/-- Where no pixel is visited twice, exactly the pixels visited are inverted (R96). -/
theorem lit_drawPixels_of_nodup {ps : List Pixel} (hd : ps.Nodup) (fb : Framebuffer) (c : Bool) (q : Pixel) :
    lit (drawPixels ps fb c).1 q = (lit fb q ^^ decide (q ∈ ps)) := by
  rw [lit_drawPixels, hd.count]
  split <;> simp [*]

/-! ## The drawing of DRW -/

section
variable (s : State) (x y n : Nibble)

/-- The rows of the sprite DRW reads where it raises nothing: `n` bytes from I up, each address mod 4096 (R96). -/
def spriteRows (n : Nat) : List Byte := (List.range n).map fun r => readByte s ((s.i.toNat + r) % 4096)

theorem spriteRows_length (n : Nat) : (spriteRows s n).length = n := by simp [spriteRows]

/-- The sprite's rows are the bytes at the addresses that the policy has passed. -/
theorem map_readByte_block (n : Nat) :
    ((List.range' s.i.toNat n).map (· % 4096)).map (readByte s) = spriteRows s n := by
  rw [List.range'_eq_map_range, List.map_map, List.map_map]
  rfl

theorem spriteBitAt_eq (r c : Nat) :
    spriteBitAt s r c = spriteBit s.cfg.spriteBitOrder (readByte s ((s.i.toNat + r) % 4096)) c := rfl

/-- The pixels DRW inverts, in the order of R96. -/
def drwPixels : List Pixel := spritePixels s.cfg (getV s x) (getV s y) 0 (spriteRows s n.toNat)

/-- The framebuffer and the collision that DRW ends with (R96). -/
def drwDrawing : Framebuffer × Bool := drawPixels (drwPixels s x y n) s.fb false

/-- The state DRW leaves before the fetch-time advance, where it raises nothing (`exec_drwVxVyN_inside`). -/
def drawSprite : State :=
  setVF (flagByte (drwDrawing s x y n).2)
    { s with
      fb := (drwDrawing s x y n).1
      request := .fbDraw (getV s x) (getV s y) n s.i (drwDrawing s x y n).2 }

/-- Where R96's loops start from the framebuffer of `s`, they end in DRW's drawing. -/
theorem refDraw_eq_drwDrawing :
    refDraw s.cfg.fbW s.cfg.fbH (getV s x).toNat (getV s y).toNat n.toNat (spriteBitAt s) (pixelOn s) =
      asGrid (drwDrawing s x y n) :=
  refDraw_eq_drawPixels s.cfg (getV s x) (getV s y) n.toNat (fun r => readByte s ((s.i.toNat + r) % 4096)) s.fb

/-- The pixels DRW inverts are those a set bit of the sprite falls on (R96). -/
theorem mem_drwPixels (p : Pixel) :
    p ∈ drwPixels s x y n ↔ ∃ j < n.toNat, ∃ k < 8, spriteBitAt s j k = true ∧
      p.1 = ((getV s x).toNat + k) % s.cfg.fbW ∧ p.2 = ((getV s y).toNat + j) % s.cfg.fbH := by
  simp [drwPixels, mem_spritePixels, spriteRows, spritePixel, spriteBitAt_eq, Prod.ext_iff]

end

section
variable {s t : State} {x y x' y' n : Nibble}

/-- DRW that raises nothing draws its sprite and goes on in sequence (R96). -/
theorem exec_drwVxVyN_inside (hin : ¬ BlockOutOfBounds s n.toNat) :
    exec (.drwVxVyN x y n) s = .next (advance (drawSprite s x y n)) := by
  simp only [exec, execDrwVxVyN, addrs_of_inside hin, map_readByte_block]
  rfl

/-- DRW one of whose sprite addresses raises (R96, R109). -/
theorem exec_drwVxVyN_raises (hout : BlockOutOfBounds s n.toNat) :
    exec (.drwVxVyN x y n) s = .next (raise .outOfBoundsAddress (encode (.drwVxVyN x y n)) s) := by
  simp only [exec, execDrwVxVyN, addrs_of_outOfBounds hout]

theorem getV_drawSprite (r : Nibble) :
    getV (drawSprite s x y n) r = if r = 0xF then flagByte (drwDrawing s x y n).2 else getV s r := getV_setV ..

/-- DRW inverts a pixel once for each time it visits it (R96, D37). -/
theorem pixelOn_drawSprite (c r : Nat) : pixelOn (advance (drawSprite s x y n)) c r =
    (pixelOn s c r ^^ decide ((drwPixels s x y n).count (c, r) % 2 = 1)) := lit_drawPixels _ s.fb false (c, r)

/-- At a size of at least 8 columns and 15 rows DRW visits no pixel twice. -/
theorem drwPixels_nodup (hw : 8 ≤ s.cfg.fbW) (hh : 15 ≤ s.cfg.fbH) : (drwPixels s x y n).Nodup := by
  have hn := n.isLt
  exact spritePixels_nodup hw _ _ _ _ (by rw [spriteRows_length]; omega)

/-- The sprite's pixels depend on the configuration, memory, I and the two coordinates only. -/
theorem drwPixels_congr (hcfg : t.cfg = s.cfg) (hmem : t.mem = s.mem) (hi : t.i = s.i) (hx : getV t x' = getV s x)
    (hy : getV t y' = getV s y) : drwPixels t x' y' n = drwPixels s x y n := by
  simp only [drwPixels, spriteRows, hcfg, hi, hx, hy, readByte_congr hmem hcfg]

theorem flagByte_eq_one {c : Bool} : flagByte c = 0x01 ↔ c = true := by cases c <;> decide

end

/-- Settles O56: R96's loops, visit by visit, are the hits of DRW's drawing. -/
theorem drwRefinesItsPseudocode : Obligations.DrwRefinesItsPseudocode := by
  intro s x y n
  constructor
  · intro hin
    rw [refDraw_eq_drwDrawing]
    refine ⟨_, exec_drwVxVyN_inside hin, fun _ _ => rfl, fun r => ?_, inSequence_advance rfl, rfl, fun _ => rfl⟩
    rw [getV_advance, getV_drawSprite, apply_ite BitVec.toNat, flagByte_toNat]
    rfl
  · exact fun hout => ⟨_, exec_drwVxVyN_raises hout, raise_haltedBy _ _ _⟩

/-- Settles O57: at this size no pixel is visited twice, so the pixels inverted are those visited, and a collision is a visit to a
pixel that was on, which DRW turns off. -/
theorem drwInvertsSpritePixelsAndReportsCollision : Obligations.DrwInvertsSpritePixelsAndReportsCollision := by
  intro s x y n hin hw hh
  have hnodup : (drwPixels s x y n).Nodup := drwPixels_nodup hw hh
  have hpixel (c r : Nat) : pixelOn (advance (drawSprite s x y n)) c r =
      (pixelOn s c r ^^ decide ((c, r) ∈ drwPixels s x y n)) := lit_drawPixels_of_nodup hnodup s.fb false (c, r)
  have hcollision : (drwDrawing s x y n).2 = (drwPixels s x y n).any (lit s.fb) := by
    rw [drwDrawing, collision_drawPixels _ _ _ hnodup, Bool.false_or]
  refine ⟨_, exec_drwVxVyN_inside hin, fun c r => ?_, ?_⟩
  · rw [hpixel, ← mem_drwPixels s x y n (c, r)]
    by_cases h : (c, r) ∈ drwPixels s x y n <;> simp [h]
  · rw [getV_advance, getV_drawSprite, if_pos rfl, flagByte_eq_one, hcollision, List.any_eq_true, Prod.exists]
    refine exists_congr fun c => exists_congr fun r => ?_
    rw [hpixel, and_comm]
    exact and_congr_right fun hon : pixelOn s c r = true => by simp [hon]

/-- Settles O58: the second drawing visits the same pixels as the first, so every pixel is inverted an even number of times. -/
theorem drwTwiceRestoresPixels : Obligations.DrwTwiceRestoresPixels := by
  intro s t x y x' y' n hin ht hx hy
  cases (exec_drwVxVyN_inside hin).symm.trans ht
  have hpixels : drwPixels (advance (drawSprite s x y n)) x' y' n = drwPixels s x y n := drwPixels_congr rfl rfl rfl hx hy
  refine ⟨_, exec_drwVxVyN_inside hin, fun c r => ?_⟩
  rw [pixelOn_drawSprite, pixelOn_drawSprite, hpixels, Bool.xor_assoc, Bool.xor_self, Bool.xor_false]

/-- Settles O55: CLS leaves the empty list of lit pixels. -/
theorem clsTurnsEveryPixelOff : Obligations.ClsTurnsEveryPixelOff :=
  fun _ => ⟨_, rfl, fun _ _ => rfl, inSequence_advance rfl, rfl, fun _ => rfl⟩

end Sys2Proof.Machine

namespace Sys2Proof.Machine

/-! ## Key selection -/

section
variable {cfg : Config} {p : BitVec 16}

/-- Under LOWEST no key below the selected one is pressed, whatever the host picks (R105). -/
theorem select_lowest_minimal (hlowest : cfg.keySelect = .lowest) (hp : p ≠ 0) (pick : Nibble) :
    ∀ j < (select cfg pick p).toNat, p.getLsbD j = false := by
  simpa only [select, hlowest] using (lowestKey_spec hp).2

/-- Under ANY a pressed key that the host picks is the selected one (log entry 15). -/
theorem select_any_of_pressed (hany : cfg.keySelect = .any) {k : Nibble} (hk : p.getLsbD k.toNat = true) :
    select cfg k p = k := by
  simp only [select, hany, keyPressed, hk, if_true]

end

/-- Settles O17: under a draw, a pressed key is its own witness as the host's pick. -/
theorem selectChoosesPressedKey : Obligations.SelectChoosesPressedKey := fun cfg _ hp =>
  ⟨fun hlowest pick => ⟨select_pressed cfg pick hp, select_lowest_minimal hlowest hp pick⟩,
    fun hany => ⟨fun pick => select_pressed cfg pick hp, fun k hk => ⟨k, select_any_of_pressed hany hk⟩⟩⟩

/-! ## The key wait -/

section
variable {s : State} {x : Nibble}

/-- The registers once a key number has gone to Vx, whether LD Vx,K or a poll wrote it. -/
theorem getV_advance_setV_zext8_toNat (x k : Nibble) (s : State) (r : Nibble) :
    (getV (advance (setV x (zext8 k) s)) r).toNat = if r = x then k.toNat else (getV s r).toNat := by
  rw [getV_advance_setV, apply_ite BitVec.toNat, zext8_toNat]

theorem resolvingKeys_level (hmode : s.cfg.keyWaitMode = .level) : resolvingKeys s = s.inputs.keys := by
  simp only [resolvingKeys, hmode]

theorem resolvingKeys_edge (hmode : s.cfg.keyWaitMode = .edge) : resolvingKeys s = s.inputs.keys &&& ~~~s.keyPrev := by
  simp only [resolvingKeys, hmode]

theorem samplePrev_level (hmode : s.cfg.keyWaitMode = .level) : samplePrev s = s := by
  simp only [samplePrev, hmode]

theorem samplePrev_edge (hmode : s.cfg.keyWaitMode = .edge) : samplePrev s = { s with keyPrev := s.inputs.keys } := by
  simp only [samplePrev, hmode]

/-- A poll samples KEY_PREV under EDGE, and nothing else (R25). -/
theorem samplePrev_eq (s : State) :
    samplePrev s = { s with keyPrev := if s.cfg.keyWaitMode = .edge then s.inputs.keys else s.keyPrev } := by
  cases hmode : s.cfg.keyWaitMode with
  | level => exact samplePrev_level hmode
  | edge => exact samplePrev_edge hmode

/-- A step in AWAIT_KEY that no key resolves (R104). -/
theorem stepCore_awaitKey_unresolved (hrun : s.run = .awaitKey x) (hkeys : resolvingKeys s = 0) :
    stepCore s = .next (samplePrev s) := by
  rw [stepCore_awaitKey hrun, poll, if_pos hkeys]

/-- A step in AWAIT_KEY that a key resolves (R104). -/
theorem stepCore_awaitKey_resolves (hrun : s.run = .awaitKey x) (hkeys : resolvingKeys s ≠ 0) :
    stepCore s = .next (resolveWait x (select s.cfg s.inputs.pick (resolvingKeys s)) (samplePrev s)) := by
  rw [stepCore_awaitKey hrun, poll, if_neg hkeys]

end

/-- Settles O16: the step is the poll, and the vector of keys that resolve it is the one the mode names. -/
theorem pollStoresKeyOrRetries : Obligations.PollStoresKeyOrRetries := by
  intro s x hrun
  refine ⟨fun hmode hkeys => ?_, fun hmode hkeys => ?_, fun p hlevel hedge hp => ?_⟩
  · rw [stepCore_awaitKey_unresolved hrun ((resolvingKeys_level hmode).trans hkeys), samplePrev_level hmode]
  · rw [stepCore_awaitKey_unresolved hrun ((resolvingKeys_edge hmode).trans hkeys), samplePrev_edge hmode]
  · have hresolving : resolvingKeys s = p := by
      cases hmode : s.cfg.keyWaitMode with
      | level => rw [resolvingKeys_level hmode, hlevel hmode]
      | edge => rw [resolvingKeys_edge hmode, hedge hmode]
    have hstep := stepCore_awaitKey_resolves hrun (hresolving ▸ hp)
    rw [hresolving, samplePrev_eq] at hstep
    exact ⟨_, select s.cfg s.inputs.pick p, hstep, select_pressed s.cfg s.inputs.pick hp,
      fun hlowest => select_lowest_minimal hlowest hp s.inputs.pick, getV_advance_setV_zext8_toNat x _ s,
      inSequence_advance rfl, rfl, rfl, rfl, fun _ => rfl⟩

/-- Settles O19: LD Vx,K by its three cases. -/
theorem keyWaitResolvesOrBlocks : Obligations.KeyWaitResolvesOrBlocks := by
  intro s x
  refine ⟨fun hmode hkeys => ?_, execLdVxK_level_waits, execLdVxK_edge⟩
  exact ⟨_, select s.cfg s.inputs.pick s.inputs.keys, execLdVxK_level_resolves hmode hkeys,
    select_pressed s.cfg s.inputs.pick hkeys, fun hlowest => select_lowest_minimal hlowest hkeys s.inputs.pick,
    getV_advance_setV_zext8_toNat x _ s, inSequence_advance rfl, advance_setV_onlyRegsAndPC x _ s⟩

/-- Settles O18: under LEVEL the poll and LD Vx,K select from the same keys, and leave the same key in Vx and the same PC. -/
theorem resolvingPollEqualsReexecution : Obligations.ResolvingPollEqualsReexecution := by
  intro s x hrun hmode hkeys
  have hresolving := resolvingKeys_level hmode
  have hpoll := stepCore_awaitKey_resolves hrun (hresolving ▸ hkeys)
  rw [hresolving, samplePrev_level hmode] at hpoll
  exact ⟨_, _, hpoll, execLdVxK_level_resolves (s := { s with run := .running }) hmode hkeys, rfl⟩

/-! ## Key skips and timer loads -/

/-- A skip on a condition that does not hold (R74, R99). -/
theorem skipIf_not_pc_toNat (c : Bool) (s : State) :
    (skipIf (!c) s).pc.toNat = (s.pc.toNat + if c then 2 else 4) % 65536 := by
  rw [skipIf_pc_toNat]
  cases c <;> rfl

/-- Vx names a key by its low nibble (R98, D17). -/
theorem keyPressed_keyNumber (cfg : Config) (keys : BitVec 16) (vx : Byte) :
    keyPressed keys (keyNumber cfg vx) = keys.getLsbD (vx.toNat % 16) := by
  simp only [keyPressed, keyNumber, BitVec.extractLsb'_toNat, Nat.shiftRight_zero, Nat.reducePow]

/-- Sound is active while ST is above 0 (R117). -/
theorem soundActive_iff (s : State) : soundActive s = true ↔ 0 < s.st.toNat := by
  rw [soundActive, bne_iff_ne, Nat.pos_iff_ne_zero, ne_eq, ne_eq, BitVec.toNat_eq]
  rfl

/-- Settles O59: both are one `skipIf`, on the key that Vx names. -/
theorem keySkipsTestLowNibble : Obligations.KeySkipsTestLowNibble := by
  intro s x
  have hkey := keyPressed_keyNumber s.cfg s.inputs.keys (getV s x)
  refine ⟨⟨_, rfl, ?_, skipIf_onlyPC _ s⟩, _, rfl, ?_, skipIf_onlyPC _ s⟩
  · rw [skipIf_pc_toNat, hkey]
  · rw [skipIf_not_pc_toNat, hkey]

/-- Settles O60: each writes Vx to its timer as a record update, and sound is active by the ST just written. -/
theorem timerLoadsWriteTheirTimer : Obligations.TimerLoadsWriteTheirTimer := fun _ _ =>
  ⟨⟨_, rfl, rfl, inSequence_advance rfl, rfl, fun _ => rfl⟩,
    _, rfl, rfl, soundActive_iff _, inSequence_advance rfl, rfl, fun _ => rfl⟩

end Sys2Proof.Machine

namespace Sys2Proof.Machine

/-! ## The two ends of a step, and HALTED -/

section
variable {s : State}

/-- The ticks before a step change the timers only, and no request stands yet (R115, R118). -/
theorem beginStep_frame (s : State) :
    beginStep s = { s with dt := (beginStep s).dt, st := (beginStep s).st, request := .none } := by
  rw [beginStep, ticks_frame]

/-- The ticks before a step change nothing in HALTED (R116). -/
theorem beginStep_halted (hrun : s.run = .halted) : beginStep s = { s with request := .none } := by
  rw [beginStep, ticks_halted hrun]

theorem stepCore_halted (hrun : s.run = .halted) : stepCore s = .next s := by
  simp only [stepCore, hrun]

/-- A step in HALTED clears the request and draws the host's next inputs (R108). -/
theorem step_halted (hcfg : s.cfg.wellFormed = true) (hrun : s.run = .halted) :
    step s = .next (endStep { s with request := .none }) := by
  have hcore : stepCore { s with request := .none } = .next { s with request := .none } := stepCore_halted hrun
  rw [step_of_wellFormed hcfg, beginStep_halted hrun, hcore, endResult]

theorem tick_halted (hrun : s.run = .halted) : tick s = s := if_pos hrun

/-- A tick outside HALTED counts both timers down (R114). -/
theorem tick_live (hlive : s.run ≠ .halted) : tick s = { s with dt := countDown s.dt, st := countDown s.st } :=
  if_neg hlive

/-- A timer that is not running stays at 0 (R114). -/
theorem countDown_of_toNat_eq_zero {b : Byte} (h : b.toNat = 0) : countDown b = b :=
  BitVec.eq_of_toNat_eq (by rw [countDown_toNat, h])

/-- A running timer goes down by one (R114). -/
theorem countDown_toNat_add_one {b : Byte} (h : 0 < b.toNat) : (countDown b).toNat + 1 = b.toNat := by
  rw [countDown_toNat]
  omega

end

/-- Settles O8: the ticks before the step count the timers down, and the host's inputs are written after it. -/
theorem stepSurroundingsAreTicksAndInputs : Obligations.StepSurroundingsAreTicksAndInputs := fun s =>
  ⟨fun hlive => ticks_timers hlive s.inputs.ticks, beginStep_halted, beginStep_frame s,
    readByte_congr (beginStep_mem s) (beginStep_cfg s), rfl, rfl, rfl, rfl, rfl⟩

/-- Settles O12: neither the ticks before a step in HALTED nor the CORE's own step changes anything. -/
theorem haltedStepAndTickChangeNothing : Obligations.HaltedStepAndTickChangeNothing := fun _ hcfg hrun =>
  ⟨⟨_, step_halted hcfg hrun, rfl, fun _ => rfl⟩, tick_halted hrun⟩

/-- Settles O13, by induction on the number of steps: each step draws one input record, and leaves a halted state. -/
theorem haltedIsAbsorbing : Obligations.HaltedIsAbsorbing := by
  intro k
  induction k with
  | zero => exact fun s _ _ => ⟨s, run_zero s, rfl⟩
  | succ k ih =>
    intro s hcfg hrun
    obtain ⟨t, ht, hframe⟩ := ih (endStep { s with request := .none }) hcfg hrun
    have hdrawn : s.drawn + 1 + k = s.drawn + (k + 1) := by omega
    rw [← hdrawn]
    exact ⟨t, (run_succ_of_next k (step_halted hcfg hrun)).trans ht, hframe⟩

/-- Settles O14: outside HALTED a tick is `countDown` on each timer. -/
theorem tickDecrementsTimers : Obligations.TickDecrementsTimers := by
  intro s
  refine ⟨fun hlive => ?_, tick_halted, tick_frame s, readByte_congr (tick_mem s) (tick_cfg s), soundActive_iff s⟩
  rw [tick_live hlive]
  exact ⟨⟨countDown_toNat_add_one, countDown_of_toNat_eq_zero⟩, countDown_toNat_add_one, countDown_of_toNat_eq_zero⟩

/-! ## The timers and the instructions that touch neither -/

/-- `s` with other timer values (R21, R22). -/
def State.withTimers (dt st : Byte) (s : State) : State := { s with dt := dt, st := st }

section
variable (dt st : Byte) (s : State)

@[simp] theorem withTimers_i : (s.withTimers dt st).i = s.i := rfl

@[simp] theorem withTimers_pc : (s.withTimers dt st).pc = s.pc := rfl

@[simp] theorem withTimers_sp : (s.withTimers dt st).sp = s.sp := rfl

@[simp] theorem withTimers_cfg : (s.withTimers dt st).cfg = s.cfg := rfl

@[simp] theorem withTimers_inputs : (s.withTimers dt st).inputs = s.inputs := rfl

/-- A tick outside HALTED, as a change of the timers. -/
theorem tick_eq_withTimers {s : State} (hlive : s.run ≠ .halted) :
    tick s = s.withTimers (countDown s.dt) (countDown s.st) := tick_live hlive

theorem popPC_withTimers : popPC (s.withTimers dt st) = (popPC s).map (State.withTimers dt st) := by
  rw [popPC, popPC, apply_dite (Option.map _)]
  rfl

theorem push_withTimers (v : Word) : push v (s.withTimers dt st) = (push v s).map (State.withTimers dt st) := by
  rw [push, push, apply_dite (Option.map _)]
  rfl

theorem writeBytes_withTimers (as : List Nat) (bs : List Byte) :
    writeBytes as bs (s.withTimers dt st) = (writeBytes as bs s).withTimers dt st := by
  rw [writeBytes_frame, writeBytes_mem_congr as bs (s := s) (t := s.withTimers dt st) rfl rfl, writeBytes_frame as bs s]
  rfl

theorem loadRegs_withTimers (k : Nat) (bs : List Byte) :
    loadRegs k bs (s.withTimers dt st) = (loadRegs k bs s).withTimers dt st := by
  induction bs generalizing k s with
  | nil => rfl
  | cons b bs ih => exact ih (setV (BitVec.ofNat 4 k) b s) (k + 1)

/-- No instruction but the three timer transfers reads or writes a timer (R21, R22): with other timer values it has the same
outcome, the other values kept. -/
theorem exec_withTimers {i : Instr} (htimer : ∀ x, i ≠ .ldVxDT x ∧ i ≠ .ldDTVx x ∧ i ≠ .ldSTVx x) :
    exec i (s.withTimers dt st) = mapNext (State.withTimers dt st) (exec i s) := by
  cases i
  case ldVxDT x => exact absurd rfl (htimer x).1
  case ldDTVx x => exact absurd rfl (htimer x).2.1
  case ldSTVx x => exact absurd rfl (htimer x).2.2
  case ret =>
    simp only [exec, execRet, withTimers_sp, popPC_withTimers]
    split
    · rfl
    · cases popPC s <;> rfl
  case callAddr =>
    simp only [exec, execCallAddr, withTimers_sp, withTimers_pc, push_withTimers]
    split
    · rfl
    · cases push (s.pc + 2) s <;> rfl
  case drwVxVyN x y n =>
    simp only [exec, execDrwVxVyN, withTimers_cfg, withTimers_i]
    cases addrs s.cfg s.i.toNat n.toNat <;> rfl
  case ldBVx =>
    simp only [exec, execLdBVx, withTimers_cfg, withTimers_i, writeBytes_withTimers]
    cases addrs s.cfg s.i.toNat 3 <;> rfl
  case ldMemIVx x =>
    simp only [exec, execLdMemIVx, withTimers_cfg, withTimers_i, writeBytes_withTimers]
    cases addrs s.cfg s.i.toNat (x.toNat + 1) <;> rfl
  case ldVxMemI x =>
    simp only [exec, execLdVxMemI, withTimers_cfg, withTimers_i, loadRegs_withTimers]
    cases addrs s.cfg s.i.toNat (x.toNat + 1) <;> rfl
  case addIVx =>
    cases hvf : s.cfg.addISetsVF <;> simp only [exec, execAddIVx, withTimers_cfg, hvf] <;> rfl
  case ldVxK =>
    simp only [exec, execLdVxK, withTimers_cfg, withTimers_inputs]
    cases s.cfg.keyWaitMode with
    | level => by_cases hkeys : s.inputs.keys = 0 <;> simp only [hkeys, if_true, if_false] <;> rfl
    | edge => rfl
  all_goals rfl

/-- No instruction but the two timer loads writes a timer (R21, R22). -/
theorem exec_timers {i : Instr} {s t : State} (hdt : ∀ x, i ≠ .ldDTVx x) (hst : ∀ x, i ≠ .ldSTVx x)
    (h : exec i s = .next t) : t.dt = s.dt ∧ t.st = s.st := by
  obtain ⟨kind, -, rfl⟩ | w := exec_writes h
  · exact ⟨rfl, rfl⟩
  · exact ⟨w.dt hdt, w.st hst⟩

end

/-- Settles O15: the instruction keeps the timers, so the tick after it counts the same values down as the tick before it. -/
theorem tickCommutesWithNonTimerInstructions : Obligations.TickCommutesWithNonTimerInstructions := by
  intro i s t htimer hlive h hlive'
  obtain ⟨hdt, hst⟩ := exec_timers (fun x => (htimer x).2.1) (fun x => (htimer x).2.2) h
  rw [tick_eq_withTimers hlive, tick_eq_withTimers hlive', hdt, hst, exec_withTimers _ _ s htimer, h, mapNext]

/-! ## Every instruction answers a next state -/

section
variable {s : State}

/-- A store instruction raises or stores its block (R92, R93). -/
theorem exec_store_next {i : Instr} {x : Nibble} (hi : i = .ldBVx x ∨ i = .ldMemIVx x) : ∃ t, exec i s = .next t := by
  by_cases hout : BlockOutOfBounds s (storedBytes s i).length
  · exact ⟨_, exec_store_raises hi hout⟩
  · exact ⟨_, exec_store hi hout⟩

/-- With SP within R19's range every instruction answers a next state (R107, R113). -/
theorem exec_next_of_sp_le (hsp : s.sp.toNat ≤ 16) (i : Instr) : ∃ t, exec i s = .next t := by
  cases i
  case ret =>
    cases hk : s.sp.toNat with
    | zero => exact ⟨_, exec_ret_underflows hk⟩
    | succ k => exact ⟨_, exec_ret_pops hk (by omega)⟩
  case callAddr nnn =>
    obtain hlt | heq := hsp.lt_or_eq
    · exact ⟨_, exec_callAddr_pushes nnn hlt⟩
    · exact ⟨_, exec_callAddr_overflows nnn heq⟩
  case drwVxVyN x y n =>
    by_cases hout : BlockOutOfBounds s n.toNat
    · exact ⟨_, exec_drwVxVyN_raises hout⟩
    · exact ⟨_, exec_drwVxVyN_inside hout⟩
  case ldBVx => exact exec_store_next (.inl rfl)
  case ldMemIVx => exact exec_store_next (.inr rfl)
  case ldVxMemI x =>
    by_cases hout : BlockOutOfBounds s (x.toNat + 1)
    · exact ⟨_, exec_ldVxMemI_raises hout⟩
    · exact ⟨_, exec_ldVxMemI_inside hout⟩
  case ldVxK x =>
    cases hmode : s.cfg.keyWaitMode with
    | level =>
      by_cases hkeys : s.inputs.keys = 0
      · exact ⟨_, execLdVxK_level_waits hmode hkeys⟩
      · exact ⟨_, execLdVxK_level_resolves hmode hkeys⟩
    | edge => exact ⟨_, execLdVxK_edge hmode⟩
  all_goals exact ⟨_, rfl⟩

/-- With SP within R19's range the CORE's own step answers a next state: a fetch or decode error is one too (R107). -/
theorem stepCore_next_of_sp_le (hsp : s.sp.toNat ≤ 16) : ∃ t, stepCore s = .next t := by
  cases hrun : s.run with
  | halted => exact ⟨_, stepCore_halted hrun⟩
  | awaitKey x => exact ⟨_, stepCore_awaitKey hrun⟩
  | running =>
    cases hfd : fetchDecode s with
    | instr i => rw [stepCore_of_fetchDecode_instr hrun hfd]; exact exec_next_of_sp_le hsp i
    | error t => exact ⟨_, stepCore_of_fetchDecode_error hrun hfd⟩

end

/-- Settles O22: the invariant rules out an illegal configuration, which is refused, and an SP above 16, which faults. -/
theorem invariantStatesAlwaysStep : Obligations.InvariantStatesAlwaysStep := by
  intro s hs
  obtain ⟨t, ht⟩ := stepCore_next_of_sp_le (beginStep_inv hs).stackPointer
  exact ⟨_, by rw [step_of_wellFormed hs.config, ht, endResult]⟩

/-! ## Errors -/

section
variable {i : Instr} {s t : State} {kind : ErrorKind}

/-- The one way an instruction halts a CORE that has not halted (R107, R110). -/
theorem exec_halted (hlive : s.run ≠ .halted) (h : exec i s = .next t) (hhalt : t.run = .halted) :
    ∃ kind, kind ≠ .none ∧ t = raise kind (encode i) s := by
  obtain hraise | ⟨hrun, -⟩ | ⟨x, -, hrun, -⟩ := exec_next_cases h
  · exact hraise
  · exact absurd (hrun.symm.trans hhalt) hlive
  · cases hrun.symm.trans hhalt

/-- A poll does not halt the CORE (R104). -/
theorem poll_run_ne_halted {x : Nibble} (hrun : s.run = .awaitKey x) : (poll x s).run ≠ .halted := by
  rw [poll]
  split <;> simp [hrun]

end

/-- Settles O27: the CORE halts by `raise` only, on the word it fetched or, where it fetched none, on the word 0. -/
theorem errorsArePrecise : Obligations.ErrorsArePrecise := by
  constructor
  · intro i s t hlive h hhalt
    obtain ⟨kind, hkind, rfl⟩ := exec_halted hlive h hhalt
    exact ⟨kind, hkind, raise_haltedBy _ _ _⟩
  · intro s t hlive h hhalt
    obtain ⟨hrun, -⟩ | ⟨x, hrun, rfl⟩ | ⟨-, ⟨i, hi, he⟩ | he⟩ := stepCore_next h
    · exact absurd hrun hlive
    · exact absurd hhalt (poll_run_ne_halted hrun)
    · obtain ⟨kind, hkind, rfl⟩ := exec_halted hlive he hhalt
      exact ⟨kind, _, hkind, raise_haltedBy _ _ _, .inl (fetch_of_fetchDecode hi)⟩
    · obtain ⟨hf, e⟩ | ⟨w, w', hf, -, e⟩ | ⟨w, i, -, -, e⟩ := fetchDecode_cases s
      · cases e.symm.trans he
        exact ⟨_, _, by decide, raise_haltedBy _ _ _, .inr ⟨hf, rfl, rfl⟩⟩
      · cases e.symm.trans he
        exact ⟨_, _, by decide, raise_haltedBy _ _ _, .inl hf⟩
      · cases e.symm.trans he

section
variable {i : Instr} {s t : State} {kind : ErrorKind}

/-- A fetch raises exactly where the policy is FAULT and its second byte lies at 4096 or beyond (R55, R109). -/
theorem fetch_eq_none_iff (s : State) : fetch s = none ↔ s.cfg.addrPolicy = .fault ∧ 4096 ≤ s.pc.toNat + 1 := by
  cases hp : s.cfg.addrPolicy with
  | wrap => simp [fetch_wrap hp]
  | fault => simp [fetch_fault hp]

/-- A fetched word raises InvalidOpcode exactly where it decodes to no instruction (R60). -/
theorem fetchDecode_eq_invalidOpcode_iff {w : Word} (hf : fetch s = some w) :
    fetchDecode s = .error (raise .invalidOpcode w s) ↔ ¬ ∃ i, decode w = .instr i := by
  cases hd : decode w with
  | instr i => simp [fetchDecode_instr hf hd]
  | invalid w' => simp [fetchDecode_of_decode_invalid hf hd]

/-- The instructions' rows of R109's table: which instruction raises which error in the state `s`. -/
inductive Raises (s : State) : Instr → ErrorKind → Prop
  | callAddr {nnn : Addr12} (h : s.sp = 16) : Raises s (.callAddr nnn) .stackOverflow
  | ret (h : s.sp = 0) : Raises s .ret .stackUnderflow
  | drwVxVyN {x y n : Nibble} (h : BlockOutOfBounds s n.toNat) : Raises s (.drwVxVyN x y n) .outOfBoundsAddress
  | ldBVx {x : Nibble} (h : BlockOutOfBounds s 3) : Raises s (.ldBVx x) .outOfBoundsAddress
  | ldMemIVx {x : Nibble} (h : BlockOutOfBounds s (x.toNat + 1)) : Raises s (.ldMemIVx x) .outOfBoundsAddress
  | ldVxMemI {x : Nibble} (h : BlockOutOfBounds s (x.toNat + 1)) : Raises s (.ldVxMemI x) .outOfBoundsAddress

/-- A row of the table that applies is what the instruction does. -/
theorem exec_of_raises (h : Raises s i kind) : exec i s = .next (raise kind (encode i) s) := by
  cases h with
  | callAddr h => exact if_pos h
  | ret h => exact if_pos h
  | drwVxVyN h => exact exec_drwVxVyN_raises h
  | ldBVx h => exact exec_store_raises (.inl rfl) h
  | ldMemIVx h => exact exec_store_raises (.inr rfl) (by rwa [storedBytes, regsUpTo_length])
  | ldVxMemI h => exact exec_ldVxMemI_raises h

/-- An instruction to which no row of the table applies does not halt. -/
theorem exec_live_of_not_raises (hlive : s.run ≠ .halted) (hno : ∀ kind, ¬ Raises s i kind) (h : exec i s = .next t) :
    t.run ≠ .halted := by
  cases i
  case ret =>
    simp only [exec, execRet, if_neg fun hsp => hno _ (.ret hsp)] at h
    split at h <;> cases h
    obtain ⟨-, rfl⟩ := popPC_eq_some (by assumption)
    exact hlive
  case callAddr nnn =>
    simp only [exec, execCallAddr, if_neg fun hsp => hno _ (.callAddr hsp)] at h
    split at h <;> cases h
    obtain ⟨-, rfl⟩ := push_eq_some (by assumption)
    exact hlive
  case drwVxVyN x y n =>
    cases (exec_drwVxVyN_inside fun hout => hno _ (.drwVxVyN hout)).symm.trans h
    exact hlive
  case ldBVx x =>
    cases (exec_store (.inl rfl) fun hout => hno _ (.ldBVx hout)).symm.trans h
    simpa [storeBlock] using hlive
  case ldMemIVx x =>
    have hin : ¬ BlockOutOfBounds s (storedBytes s (.ldMemIVx x)).length := fun hout =>
      hno _ (.ldMemIVx (by rwa [storedBytes, regsUpTo_length] at hout))
    cases (exec_store (.inr rfl) hin).symm.trans h
    simpa [storeBlock] using hlive
  case ldVxMemI x =>
    cases (exec_ldVxMemI_inside fun hout => hno _ (.ldVxMemI hout)).symm.trans h
    simpa using hlive
  case ldVxK x =>
    simp only [exec, execLdVxK] at h
    split at h <;> cases h
    · split
      · exact nofun
      · exact hlive
    · exact nofun
  case addIVx x =>
    obtain ⟨v, hv⟩ := execAddIVx_frame x s
    cases hv.symm.trans h
    exact hlive
  all_goals cases h; exact hlive

/-- R109's table decides which error an instruction halts with. -/
theorem exec_halts_iff_raises (hlive : s.run ≠ .halted) :
    (∃ t, exec i s = .next t ∧ t.run = .halted ∧ t.err.kind = kind) ↔ Raises s i kind := by
  constructor
  · rintro ⟨t, h, hhalt, rfl⟩
    obtain ⟨kind, hraises⟩ : ∃ kind, Raises s i kind := by
      by_contra hno
      exact exec_live_of_not_raises hlive (not_exists.1 hno) h hhalt
    cases (exec_of_raises hraises).symm.trans h
    exact hraises
  · exact fun hraises => ⟨_, exec_of_raises hraises, rfl, rfl⟩

theorem blockOutOfBounds_succ {n : Nat} :
    BlockOutOfBounds s (n + 1) ↔ s.cfg.addrPolicy = .fault ∧ 4096 ≤ s.i.toNat + n := by
  simp [BlockOutOfBounds, ← Nat.add_assoc]

/-- R109's table, written out. -/
theorem raises_iff : Raises s i kind ↔
    (kind = .stackOverflow ∧ s.sp = 16 ∧ ∃ nnn, i = .callAddr nnn) ∨
    (kind = .stackUnderflow ∧ s.sp = 0 ∧ i = .ret) ∨
    (kind = .outOfBoundsAddress ∧ s.cfg.addrPolicy = .fault ∧
      ((∃ x y n, i = .drwVxVyN x y n ∧ 0 < n.toNat ∧ 4096 ≤ s.i.toNat + n.toNat - 1) ∨
       (∃ x, i = .ldBVx x ∧ 4096 ≤ s.i.toNat + 2) ∨
       (∃ x, i = .ldMemIVx x ∧ 4096 ≤ s.i.toNat + x.toNat) ∨
       (∃ x, i = .ldVxMemI x ∧ 4096 ≤ s.i.toNat + x.toNat))) := by
  constructor
  · intro h
    cases h with
    | callAddr h => exact .inl ⟨rfl, h, _, rfl⟩
    | ret h => exact .inr (.inl ⟨rfl, h, rfl⟩)
    | drwVxVyN h => exact .inr (.inr ⟨rfl, h.1, .inl ⟨_, _, _, rfl, h.2⟩⟩)
    | ldBVx h =>
      obtain ⟨hp, hout⟩ := blockOutOfBounds_succ.1 h
      exact .inr (.inr ⟨rfl, hp, .inr (.inl ⟨_, rfl, hout⟩)⟩)
    | ldMemIVx h =>
      obtain ⟨hp, hout⟩ := blockOutOfBounds_succ.1 h
      exact .inr (.inr ⟨rfl, hp, .inr (.inr (.inl ⟨_, rfl, hout⟩))⟩)
    | ldVxMemI h =>
      obtain ⟨hp, hout⟩ := blockOutOfBounds_succ.1 h
      exact .inr (.inr ⟨rfl, hp, .inr (.inr (.inr ⟨_, rfl, hout⟩))⟩)
  · rintro (⟨rfl, hsp, nnn, rfl⟩ | ⟨rfl, hsp, rfl⟩ |
      ⟨rfl, hp, ⟨x, y, n, rfl, hout⟩ | ⟨x, rfl, hout⟩ | ⟨x, rfl, hout⟩ | ⟨x, rfl, hout⟩⟩)
    · exact .callAddr hsp
    · exact .ret hsp
    · exact .drwVxVyN ⟨hp, hout⟩
    · exact .ldBVx (blockOutOfBounds_succ.2 ⟨hp, hout⟩)
    · exact .ldMemIVx (blockOutOfBounds_succ.2 ⟨hp, hout⟩)
    · exact .ldVxMemI (blockOutOfBounds_succ.2 ⟨hp, hout⟩)

end

/-- Settles O28: by the fetch, then by whether a row of the opcode map selects the word, then by R109's table of instructions. -/
theorem whatRaisesWhichError : Obligations.WhatRaisesWhichError := by
  refine ⟨fetch_eq_none_iff, fun s w hf => ?_, fun i s kind hlive => (exec_halts_iff_raises hlive).trans raises_iff⟩
  obtain ⟨hrow, -⟩ := wordDecodesIffOneRowSelectsIt w
  rw [fetchDecode_eq_invalidOpcode_iff hf, hrow]
  simp only [not_exists, not_and, ne_eq]

/-! ## Requests -/

section
variable {i : Instr} {s t : State}

/-- The HALT request carries the error record (R118). -/
theorem exec_halted_request (hlive : s.run ≠ .halted) (h : exec i s = .next t) (hhalt : t.run = .halted) :
    t.request = .halt t.err := by
  obtain ⟨kind, -, rfl⟩ := exec_halted hlive h hhalt
  rfl

/-- The FB_DRAW request carries the coordinates, the size and the address as they were, and the collision that VF ends with
(R118). -/
theorem exec_drwVxVyN_request {x y n : Nibble} (h : exec (.drwVxVyN x y n) s = .next t) (hlive : t.run ≠ .halted) :
    t.request = .fbDraw (getV s x) (getV s y) n s.i (decide (getV t 0xF = 0x01)) := by
  by_cases hout : BlockOutOfBounds s n.toNat
  · cases (exec_drwVxVyN_raises hout).symm.trans h
    exact absurd rfl hlive
  · cases (exec_drwVxVyN_inside hout).symm.trans h
    simp only [getV_advance, getV_drawSprite, if_true, flagByte_eq_one, Bool.decide_eq_true]
    rfl

/-- LD Vx,K asks for a key exactly where it waits for one (R118, log entry 23). -/
theorem execLdVxK_request {x : Nibble} (hreq : s.request = .none) (hrun : s.run = .running) (h : execLdVxK x s = .next t) :
    t.request = if t.run = .awaitKey x then .keyWait x else .none := by
  cases hmode : s.cfg.keyWaitMode with
  | level =>
    by_cases hkeys : s.inputs.keys = 0
    · cases (execLdVxK_level_waits hmode hkeys).symm.trans h
      exact (if_pos rfl).symm
    · cases (execLdVxK_level_resolves hmode hkeys).symm.trans h
      simp [hreq, hrun]
  | edge =>
    cases (execLdVxK_edge hmode).symm.trans h
    exact (if_pos rfl).symm

/-- Every other instruction that goes on in RUNNING leaves the request as it was (R118). -/
theorem exec_request_eq (hrun : t.run = .running) (h : exec i s = .next t) (hcls : i ≠ .cls)
    (hdrw : ∀ x y n, i ≠ .drwVxVyN x y n) (hx : ∀ x, i ≠ .ldDTVx x ∧ i ≠ .ldSTVx x ∧ i ≠ .ldVxK x) :
    t.request = s.request := by
  obtain ⟨kind, -, rfl⟩ | w := exec_writes h
  · cases hrun
  · exact w.request hcls hdrw hx

end

/-- Settles O31: one lemma for each instruction with a request, and the frame of O29 for those without. -/
theorem eachInstructionEmitsItsRequest : Obligations.EachInstructionEmitsItsRequest := by
  intro i s t hreq hrun h
  have hkey (x : Nibble) (hi : i = .ldVxK x) : t.request = if t.run = .awaitKey x then .keyWait x else .none := by
    subst hi
    exact execLdVxK_request hreq hrun h
  refine ⟨exec_halted_request (by simp [hrun]) h, ?_, ?_, hkey, ?_, ?_, ?_⟩
  · rintro rfl
    cases h
    rfl
  · rintro x y n rfl hrun'
    exact exec_drwVxVyN_request h (by simp [hrun'])
  · rintro x rfl
    cases h
    rfl
  · rintro x rfl
    cases h
    rfl
  · intro hrun' hcls hdrw htimer
    by_cases hwait : ∃ x, i = .ldVxK x
    · obtain ⟨x, hi⟩ := hwait
      rw [hkey x hi, hrun', if_neg nofun]
    · exact (exec_request_eq hrun' h hcls hdrw fun x => ⟨(htimer x).1, (htimer x).2, fun hi => hwait ⟨x, hi⟩⟩).trans hreq

end Sys2Proof.Machine

namespace Sys2Proof.Machine

/-! ## Reset from any state, and a step with no image loaded -/

theorem stack_resetWith (cfg : Config) {k : Nat} (h : k < 16) : (State.resetWith cfg).stack[k] = 0x0000 :=
  Vector.getElem_replicate h

/-- Settles O24: but for the host's inputs the reset input gives `State.resetWith`, and R6 makes the font 80 bytes long. -/
theorem resetInputRestoresResetState : Obligations.ResetInputRestoresResetState := by
  intro s hcfg
  obtain ⟨-, -, hlen, -⟩ := Config.wellFormed_iff.1 hcfg
  have hfont (k : Nat) (h : k < s.cfg.fontData.length) : readByte (assertReset s) (s.cfg.fontBase + k) = s.cfg.fontData[k] :=
    (readByte_assertReset s _).trans (resetByte_font s.cfg k h)
  have hzero (a : Nat) (ha : a < s.cfg.fontBase ∨ s.cfg.fontBase + 80 ≤ a) : readByte (assertReset s) a = 0x00 :=
    (readByte_assertReset s a).trans (resetByte_outside s.cfg a (by rwa [hlen]))
  exact ⟨getV_resetWith s.cfg, rfl, rfl, rfl, fun _ hk => stack_resetWith s.cfg hk, rfl, rfl, rfl, rfl, rfl, fun _ _ => rfl,
    hfont, hzero, rfl⟩

/-- With no image loaded the word at 0x200 is two zero bytes, since the font ends below it (R38, R128). -/
theorem fetch_reset : fetch State.reset = some 0x0000 := by
  have hpc : State.reset.pc.toNat = 0x200 := rfl
  have hzero (a : Nat) (ha : 0x200 ≤ a) : readByte State.reset a = 0x00 :=
    (readByte_reset a).trans (resetByte_outside hardwareConfig a (.inr (Nat.le_trans (by decide) ha)))
  rw [fetch_wrap rfl, hpc, hzero _ (by decide), hzero _ (by decide)]
  rfl

/-- Settles O25: the word 0x0000 is invalid, and an invalid word halts precisely (O10). -/
theorem stepWithoutImageHalts : Obligations.StepWithoutImageHalts := by
  have hinvalid : decode 0x0000 = .invalid 0x0000 := by decide
  obtain ⟨t, hstep, ⟨rfl, -⟩, herr, hpc, -⟩ :=
    invalidWordHaltsPrecisely State.reset 0x0000 (by decide) rfl fetch_reset hinvalid
  exact ⟨_, hstep, rfl, herr, hpc⟩

end Sys2Proof.Machine
